-- ==== Sys2Proof/Word.lean ====
section
/-! DEFINITION. The word types of the block and the type of an 8-byte buffer (00_scope.md R12; 10_state.md R20). -/

namespace Sys2Proof

/-- A byte of the message, of a buffer or of a word. -/
abbrev Byte := BitVec 8

/-- A 64-bit value: the State, a message word, the digest (R12). -/
abbrev Word64 := BitVec 64

/-- A command word `cw[71:0]` (30_encoding.md R55). -/
abbrev CmdWord := BitVec 72

/-- An 8-byte buffer; `b0` is byte 0, the most significant byte of the 64-bit value it stands for (R12). -/
structure Bytes8 where
  b0 : Byte
  b1 : Byte
  b2 : Byte
  b3 : Byte
  b4 : Byte
  b5 : Byte
  b6 : Byte
  b7 : Byte
  deriving DecidableEq, Repr, Inhabited

end Sys2Proof
end

