-- ==== Sys2Proof/Syntax.lean ====
section
/-! DEFINITION. The commands of CRUSH-CMD v1, one constructor per row of spec/opcode_table.json. -/

namespace Sys2Proof

/-- A decoded command (30_encoding.md R57, R63). DSTEP is not one: it has no encoding and the host cannot issue it (R62). -/
inductive Instr where
  /-- `INIT`, control byte 0x10: start a hash (42_orchestrator.md R107). Its data field is ignored, so it is no operand (R58). -/
  | init
  /-- `FOLDW data`, control byte 0x20: fold one full word (40_fold.md R76). -/
  | foldw (data : Word64)
  /-- `FOLDP n, data`, control byte 0x30 + n: fold the trailing partial word and close the stream (40_fold.md R77). -/
  | foldp (n : BitVec 3) (data : Word64)
  /-- `FIN`, control byte 0x40: end of stream, start the diffusion (42_orchestrator.md R108). Its data field is ignored. -/
  | fin
  deriving DecidableEq, Repr

end Sys2Proof
end

