-- ==== Sys2Proof/WellFormed.lean ====
section
/-! DEFINITION. Well-formedness of the four fields of a command word, and of a command (30_encoding.md R56, R58). -/

namespace Sys2Proof

/-- The fields of a command word, each at its width and with any value (R56). -/
structure CmdFields where
  op : BitVec 4
  z : BitVec 1
  n : BitVec 3
  data : Word64
  deriving DecidableEq, Repr

/-- `op` is one of the four operation codes of the opcode map (R57). -/
def CmdFields.opKnown (f : CmdFields) : Bool :=
  f.op == 1#4 || f.op == 2#4 || f.op == 3#4 || f.op == 4#4

/-- "for every command `z` must be 0" (R58). -/
def CmdFields.zClear (f : CmdFields) : Bool := f.z == 0#1

/-- "For INIT, FOLDW and FIN the field `n` must be 0" (R58); `op` = 3, FOLDP, may hold any count. -/
def CmdFields.countAllowed (f : CmdFields) : Bool := f.op == 3#4 || f.n == 0#3

/-- The fields select a row of the opcode map (R57, R58). -/
def CmdFields.wellFormed (f : CmdFields) : Bool := f.opKnown && f.zClear && f.countAllowed

/-- The fields of a command as the opcode map gives them; an ignored data field is written as zero (R57, R66). -/
def Instr.fields : Instr → CmdFields
  | .init => ⟨1#4, 0#1, 0#3, 0#64⟩
  | .foldw data => ⟨2#4, 0#1, 0#3, data⟩
  | .foldp n data => ⟨3#4, 0#1, n, data⟩
  | .fin => ⟨4#4, 0#1, 0#3, 0#64⟩

/-- A command is well formed when its fields select a row. The operand types of `Instr` admit exactly what the
encoding admits ("all eight values legal" for `n`), so every command is. -/
def Instr.wellFormed (i : Instr) : Bool := i.fields.wellFormed

end Sys2Proof
end

