-- ==== Sys2Proof/Decode.lean ====
section
/-! DEFINITION. Decoding a 72-bit word (30_encoding.md R56, R57, R60, R63) and, after it, the encoder (R66) and the opcode map as rows (R57). -/

namespace Sys2Proof

/-- The control byte `cw[71:64]` (R55). -/
def controlByte (cw : CmdWord) : Byte := cw.extractLsb' 64 8

/-- `data(cw)`, the field `cw[63:0]` (R56). -/
def dataField (cw : CmdWord) : Word64 := cw.extractLsb' 0 64

/-- The four fields of a word: `op` = cw[71:68], `z` = cw[67], `n` = cw[66:64], `data` = cw[63:0] (R56). -/
def fieldsOf (cw : CmdWord) : CmdFields :=
  ⟨cw.extractLsb' 68 4, cw.extractLsb' 67 1, cw.extractLsb' 64 3, dataField cw⟩

/-- What the decoder answers: a command, or the verdict `ILLEGAL`, which is no command (R63). -/
inductive Decoded where
  | command (i : Instr)
  | illegal
  deriving DecidableEq, Repr

/-- `decode`, a total function on command words, in the order of the spec's own text (R63). -/
def decode (cw : CmdWord) : Decoded :=
  let cb := controlByte cw
  if cb = 0x10#8 then .command .init
  else if cb = 0x20#8 then .command (.foldw (dataField cw))
  else if cb.extractLsb' 3 5 = 0b00110#5 then .command (.foldp (cb.extractLsb' 0 3) (dataField cw))
  else if cb = 0x40#8 then .command .fin
  else .illegal

/-- The control byte of a command (R57). -/
def Instr.control : Instr → Byte
  | .init => 0x10#8
  | .foldw _ => 0x20#8
  | .foldp n _ => 0x30#8 ||| n.setWidth 8
  | .fin => 0x40#8

/-- The data field a command is written with; zero where the command ignores it (R66). -/
def Instr.payload : Instr → Word64
  | .init => 0#64
  | .foldw data => data
  | .foldp _ data => data
  | .fin => 0#64

/-- `enc`, the word of a command (R66). -/
def encode (i : Instr) : CmdWord := i.control ++ i.payload

/-- A row of the opcode map: a word `cw` selects it when `(cw and mask) == match` (R57). -/
structure OpcodeRow where
  mnemonic : String
  pattern : CmdWord
  mask : CmdWord
  deriving DecidableEq, Repr

/-- The four rows of the opcode map (R57, spec/opcode_table.json). -/
def opcodeMap : List OpcodeRow :=
  [ ⟨"INIT", 0x100000000000000000#72, 0xff0000000000000000#72⟩,
    ⟨"FOLDW", 0x200000000000000000#72, 0xff0000000000000000#72⟩,
    ⟨"FOLDP", 0x300000000000000000#72, 0xf80000000000000000#72⟩,
    ⟨"FIN", 0x400000000000000000#72, 0xff0000000000000000#72⟩ ]

/-- The word selects the row (R57). -/
def OpcodeRow.selects (r : OpcodeRow) (cw : CmdWord) : Bool := (cw &&& r.mask) == r.pattern

/-- The mnemonic of a command, as the opcode map spells it (R57). -/
def Instr.mnemonic : Instr → String
  | .init => "INIT"
  | .foldw _ => "FOLDW"
  | .foldp _ _ => "FOLDP"
  | .fin => "FIN"

/-- The instruction the decoder reads from the table word `w` of `nbits` bits; bits above `nbits` are zero.
A row wider than the 72-bit command word does not exist (R55) and is refused. DESIGN CHOICE (log 12). -/
def decodeTableWord (nbits w : Nat) : Option Instr :=
  if nbits ≤ 72 then
    match decode (BitVec.ofNat 72 (w % 2 ^ nbits)) with
    | .command i => some i
    | .illegal => none
  else none

end Sys2Proof
end

