-- ==== Sys2Proof/Config.lean ====
section
/-! DEFINITION. The constants of the algorithm, the parameters of the hardware binding, and the values the spec leaves open. -/

namespace Sys2Proof.Config

/-! Constants of the algorithm (00_scope.md R7): fixed at elaboration, written by no command. -/

/-- `INITIAL_STATE`, the seed of the State (R7). -/
def initialState : Word64 := 0x1c98c677de371c7d#64

/-- `FILL_BYTE`, which completes a trailing partial word (R7). -/
def fillByte : Byte := 0x37#8

/-- `AMBIG_DIGEST`; a literal that does not follow a changed `INITIAL_STATE` (R7, 93_implementation_defined.md U12). -/
def ambigDigest : Word64 := 0xb4bb4023dcbf444b#64

/-- `WORD_BYTES`: bytes per folded word (R7). -/
def wordBytes : Nat := 8

/-- `OUTER_ROUNDS` of the Diffuser (R7). -/
def outerRounds : Nat := 8

/-- `INNER_ROUNDS` of the Diffuser (R7). -/
def innerRounds : Nat := 8

/-- `READ_CHUNK_SIZE`: of the reference function `HasherRef` only, no parameter of the hardware (R8). -/
def readChunkSize : Nat := 4096000

/-! Parameters of the hardware binding (00_scope.md R9). -/

/-- `CMD_BITS` (R9). -/
def cmdBits : Nat := 72

/-- `PHASE_BITS` (R9). -/
def phaseBits : Nat := 3

/-- `ERRCODE_BITS` (R9). -/
def errcodeBits : Nat := 2

/-- `DIFFUSE_STEPS`: micro-steps between FIN accepted and DONE (R9). -/
def diffuseSteps : Nat := outerRounds * innerRounds

/-- `DIFFUSE_CYCLES`: OPEN in the spec; "no rule depends on it" (R9, U9), and nothing of the model reads it (log 4). -/
opaque diffuseCycles : Nat

/-! What the data registers hold after a Reset: the spec says "unspecified" (10_state.md R36, R37, U2).
Each is a free value: the `k`-th reset leaves the value at `k`, and nothing can evaluate it.
DESIGN CHOICE (log 1), unsafe. -/

/-- `ST` after the `k`-th reset: free. -/
opaque freeST : Nat → Word64

/-- `SRC` after the `k`-th reset: free. -/
opaque freeSRC : Nat → Bytes8

/-- `DST` after the `k`-th reset: free. -/
opaque freeDST : Nat → Bytes8

/-- `DG` after the `k`-th reset: free. -/
opaque freeDG : Nat → Word64

end Sys2Proof.Config
end

