-- ==== Sys2Proof/Machine/Operands.lean ====
section
/-! DEFINITION. Byte order, the operand forms of FOLDW and FOLDP, and the padded word (00_scope.md R12, R13; 30_encoding.md R59; 40_fold.md R71). -/

namespace Sys2Proof

/-- `byte(v, i) = v[63-8i : 56-8i]`; byte 0 is the most significant (R12). -/
def byteAt (v : Word64) (i : Fin 8) : Byte := v.extractLsb' (56 - 8 * i.val) 8

/-- `be64(b0, ..., b7) = {b0, ..., b7}` (R12). -/
def be64 (b0 b1 b2 b3 b4 b5 b6 b7 : Byte) : Word64 :=
  b0 ++ b1 ++ b2 ++ b3 ++ b4 ++ b5 ++ b6 ++ b7

/-- Byte `i` of a buffer, `SRC[i]` or `DST[i]` (R14). -/
def Bytes8.get (b : Bytes8) : Fin 8 → Byte
  | 0 => b.b0
  | 1 => b.b1
  | 2 => b.b2
  | 3 => b.b3
  | 4 => b.b4
  | 5 => b.b5
  | 6 => b.b6
  | 7 => b.b7

/-- The buffer whose byte `i` is `f i`. -/
def Bytes8.ofFn (f : Fin 8 → Byte) : Bytes8 := ⟨f 0, f 1, f 2, f 3, f 4, f 5, f 6, f 7⟩

/-- The bytes of a 64-bit value, byte 0 first (R12). -/
def Bytes8.ofWord (v : Word64) : Bytes8 := .ofFn (byteAt v)

/-- The 64-bit value of a buffer (R12). -/
def Bytes8.toWord (b : Bytes8) : Word64 := be64 b.b0 b.b1 b.b2 b.b3 b.b4 b.b5 b.b6 b.b7

/-- The bytes of a buffer as a byte sequence. -/
def Bytes8.toList (b : Bytes8) : List Byte := [b.b0, b.b1, b.b2, b.b3, b.b4, b.b5, b.b6, b.b7]

/-- `a +8 b`: addition modulo 256, the carry lost (R13, 41_diffuse.md R94). -/
def add8 (a b : Byte) : Byte := a + b

/-- `~8 a = a ^ 0xFF` (R13). -/
def not8 (a : Byte) : Byte := a ^^^ 0xFF#8

/-- `foldw(st, w) = st ^ w` (40_fold.md R70). -/
def foldw (st w : Word64) : Word64 := st ^^^ w

/-- The word FOLDP folds for `n` in 1..7: byte `i` of the data for `i < n`, the fill byte after it (40_fold.md R71, R77).
The bytes of `data` from `n` on never reach it (30_encoding.md R59). -/
def paddedTail (n : BitVec 3) (data : Word64) : Word64 :=
  (Bytes8.ofFn fun i => if i.val < n.toNat then byteAt data i else Config.fillByte).toWord

/-- The tail operand of FOLDP: the `n` most significant bytes of the data (30_encoding.md R59). -/
def tailBytes (n : BitVec 3) (data : Word64) : List Byte := (Bytes8.ofWord data).toList.take n.toNat

end Sys2Proof
end

