-- ==== Sys2Proof/Machine/State.lean ====
section
/-! DEFINITION. The state of the block: the nine registers of 10_state.md R20 and the model's own two fields; the outcomes a step could stop with; the state after reset (R36). -/

namespace Sys2Proof.Machine

/-- `PHASE` (10_state.md R27): six values; the codes 5 and 6 never occur, so they are no constructors (log 7). -/
inductive Phase where
  /-- code 0: after reset; `ST` holds nothing of use. -/
  | idle
  /-- code 1: `ST` initialised, stream open. -/
  | absorb
  /-- code 2: the trailing partial word has been folded; no more data may follow. -/
  | closed
  /-- code 3: the Diffuser is running. -/
  | diffuse
  /-- code 4: `DG` and `AZ` are valid. -/
  | done
  /-- code 7: a protocol error occurred. -/
  | fault
  deriving DecidableEq, Repr

/-- `ERRCODE` (10_state.md R29, 60_exceptions.md R126). -/
inductive ErrCode where
  /-- code 0: no protocol error since reset. -/
  | none
  /-- code 1, `ILLEGAL_CMD`: a word that decodes to no command. -/
  | illegalCmd
  /-- code 2, `SEQ_FOLD`: FOLDW or FOLDP accepted in IDLE, CLOSED or DONE. -/
  | seqFold
  /-- code 3, `SEQ_FIN`: FIN accepted in IDLE or DONE. -/
  | seqFin
  deriving DecidableEq, Repr

/-- What the host drives on the input ports at one step (10_state.md R34), and whether it keeps a word that is not accepted
or withdraws it (70_reset_and_hazards.md R156 H4). `clk` needs no field: a step is a rising edge. -/
structure PortSample where
  /-- `rst`, active high. -/
  rst : Bool
  /-- `cmd_valid`. -/
  cmdValid : Bool
  /-- `cmd`. -/
  cmd : CmdWord
  /-- The host goes on presenting the word until it is accepted. -/
  hold : Bool
  deriving DecidableEq, Repr

/-- The whole state of the block (R20), what the host will drive, and the count of free values drawn. -/
structure State where
  /-- `ST`, the State accumulator (R21). -/
  st : Word64
  /-- `SRC[0..7]`, the Diffuser's working buffer (R23). -/
  src : Bytes8
  /-- `DST[0..7]`, the Diffuser's scratch buffer, never aliased with `SRC` (R24). -/
  dst : Bytes8
  /-- `DG`, the digest (R26). -/
  dg : Word64
  /-- `AZ`, the diagnostic flag `isAmbiguousAllZero` (R28). -/
  az : Bool
  /-- `PHASE` (R27). -/
  phase : Phase
  /-- `OC`, outer rounds completed, 4 bits (R25). -/
  oc : BitVec 4
  /-- `IC`, inner steps completed in the current round, 3 bits (R25). -/
  ic : BitVec 3
  /-- `ERRCODE`, cause of the first protocol error (R29). -/
  errcode : ErrCode
  /-- The MODEL's own: what the host drives at the steps to come, the next one first; empty when the host presents nothing (log 3). -/
  inputs : List PortSample
  /-- The MODEL's own: the index of the next free value (log 2). -/
  freeIndex : Nat
  deriving DecidableEq, Repr

/-- The reasons a step stops with a fault: NONE. No rule of the spec stops the block: data cannot fail
(60_exceptions.md R125), and a protocol error is a next state (R128). DEDUCED (log 11); safe. -/
inductive Fault where
  deriving DecidableEq, Repr

/-- The reasons a step is refused. -/
inductive Refusal where
  /-- An arm of `exec` whose instruction has no meaning yet raises it; no arm does now. Safe. -/
  | notModelled (mnemonic : String)
  deriving DecidableEq, Repr

/-- The block right after the step Reset (10_state.md R36, 70_reset_and_hazards.md R145). The data registers are unspecified
there and hold free values here (log 1); the host's list is empty (log 3). -/
def State.reset : State where
  st := Config.freeST 0
  src := Config.freeSRC 0
  dst := Config.freeDST 0
  dg := Config.freeDG 0
  az := false
  phase := .idle
  oc := 0#4
  ic := 0#3
  errcode := .none
  inputs := []
  freeIndex := 1

end Sys2Proof.Machine
end

