-- ==== Sys2Proof/Machine/Flags.lean ====
section
/-! DEFINITION. The one stored flag's computation and the output bits that are functions of PHASE (10_state.md R28, R31; 42_orchestrator.md R109). -/

namespace Sys2Proof.Machine

/-- `AZ <- (DG_new == AMBIG_DIGEST)`, a comparison of 64-bit values (R28, R109). -/
def ambiguousFlag (digest : Word64) : Bool := digest == Config.ambigDigest

/-- `done = (PHASE == DONE)` (R31). -/
def State.done (s : State) : Bool := s.phase == .done

/-- `busy = (PHASE == DIFFUSE)` (R31). -/
def State.busy (s : State) : Bool := s.phase == .diffuse

/-- `err = (PHASE == FAULT)` (R31). -/
def State.err (s : State) : Bool := s.phase == .fault

/-- `cmd_ready = (PHASE != DIFFUSE)` (R31, 42_orchestrator.md R110). -/
def State.cmdReady (s : State) : Bool := s.phase != .diffuse

end Sys2Proof.Machine
end

