-- ==== Sys2Proof/Machine/Ops.lean ====
section
/-! DEFINITION. The shared operations: taking a protocol error (60_exceptions.md R128) and the one way back from it, Reset (R132, R145); when a command is heard (42_orchestrator.md R110, R111); the input ports (10_state.md R34). -/

namespace Sys2Proof.Machine

/-- `ProtocolError(code)`: ERRCODE and PHASE are written and nothing else (R128). -/
def protocolError (code : ErrCode) (s : State) : State :=
  { s with errcode := code, phase := .fault }

/-- The step Reset (R145): the control registers cleared, the data registers unspecified, so each a fresh free value (log 1).
It is the only return from FAULT (R132). -/
def applyReset (s : State) : State where
  st := Config.freeST s.freeIndex
  src := Config.freeSRC s.freeIndex
  dst := Config.freeDST s.freeIndex
  dg := Config.freeDG s.freeIndex
  az := false
  phase := .idle
  oc := 0#4
  ic := 0#3
  errcode := .none
  inputs := s.inputs
  freeIndex := s.freeIndex + 1

/-- The phases in which an accepted command is looked at: not DIFFUSE, where none is accepted and a word presented "has no
effect at all" (20_memory.md R48, 42_orchestrator.md R110; DEDUCED, log 5), and not FAULT, where it is accepted and ignored
(60_exceptions.md R129). -/
def Phase.listens : Phase → Bool
  | .idle => true
  | .absorb => true
  | .closed => true
  | .diffuse => false
  | .done => true
  | .fault => false

/-- Performs a command's effect `t` on a state that listens, and nothing on one that does not (R110, R111). -/
def whenHeard (s t : State) : Host.Outcome State Fault Refusal :=
  .next (if s.phase.listens then t else s)

/-- A host that presents nothing: `rst = 0`, `cmd_valid = 0` (70_reset_and_hazards.md R156 H3). -/
def PortSample.quiet : PortSample := ⟨false, false, 0#72, false⟩

/-- A host that presents a word and keeps it until it is accepted (R156 H4). -/
def PortSample.present (cw : CmdWord) : PortSample := ⟨false, true, cw, true⟩

/-- A host that asserts reset (R156 H1). -/
def PortSample.assertReset : PortSample := ⟨true, false, 0#72, false⟩

/-- The levels of the input ports at the next step; quiet when the host has nothing more to drive (log 3). -/
def State.pins (s : State) : PortSample :=
  match s.inputs with
  | [] => .quiet
  | e :: _ => e

/-- The word on the port waits: it is valid, not overridden by reset, `cmd_ready = 0`, and the host keeps it (R110, R151). -/
def State.wordWaits (s : State) : Bool :=
  !s.pins.rst && s.pins.cmdValid && s.pins.hold && !s.cmdReady

/-- The host moves on to its next sample, unless it keeps a word that waits (R110). No register changes. -/
def State.advanceInputs (s : State) : State :=
  { s with inputs := if s.wordWaits then s.inputs else s.inputs.tail }

/-- Puts a word on the port before everything else the host will drive, to be kept until accepted (log 6). -/
def State.offer (cw : CmdWord) (s : State) : State :=
  { s with inputs := .present cw :: s.inputs }

end Sys2Proof.Machine
end

