-- ==== Sys2Proof/Machine/Diffuser.lean ====
section
/-! DEFINITION. The Diffuser: the inner step, the end-of-round mask and the micro-step DSTEP (41_diffuse.md R86 to R92). -/

namespace Sys2Proof.Machine

/-- `feedback = src[0] XOR ... XOR src[7]` (R87). -/
def feedback (src : Bytes8) : Byte :=
  src.b0 ^^^ src.b1 ^^^ src.b2 ^^^ src.b3 ^^^ src.b4 ^^^ src.b5 ^^^ src.b6 ^^^ src.b7

/-- `dst = (src[1], ..., src[7], feedback)`: a shift, not a rotation (R87, 90_conflicts.md C5). -/
def shiftIn (src : Bytes8) : Bytes8 :=
  ⟨src.b1, src.b2, src.b3, src.b4, src.b5, src.b6, src.b7, feedback src⟩

/-- `src[k] = dst[k] +8 dst[7-k]` for every `k`, of the `dst` just formed (R88, R89). -/
def mirrorAdd (d : Bytes8) : Bytes8 :=
  ⟨add8 d.b0 d.b7, add8 d.b1 d.b6, add8 d.b2 d.b5, add8 d.b3 d.b4,
   add8 d.b4 d.b3, add8 d.b5 d.b2, add8 d.b6 d.b1, add8 d.b7 d.b0⟩

/-- The end-of-round mask on `src`: bytes 0, 2, 4, 6 complemented (R90). -/
def maskSrc (b : Bytes8) : Bytes8 :=
  { b with b0 := not8 b.b0, b2 := not8 b.b2, b4 := not8 b.b4, b6 := not8 b.b6 }

/-- The end-of-round mask on `dst`: bytes 1, 3, 5, 7 complemented (R90). -/
def maskDst (b : Bytes8) : Bytes8 :=
  { b with b1 := not8 b.b1, b3 := not8 b.b3, b5 := not8 b.b5, b7 := not8 b.b7 }

/-- DSTEP where it is not the eighth pass of a round (R92). -/
def innerPass (s : State) : State :=
  { s with dst := shiftIn s.src, src := mirrorAdd (shiftIn s.src), ic := s.ic + 1#3 }

/-- DSTEP's eighth pass of a round: the pass, then the mask; `IC` returns to 0 and `OC` counts the round (R92). -/
def lastPass (s : State) : State :=
  { s with
    dst := maskDst (shiftIn s.src)
    src := maskSrc (mirrorAdd (shiftIn s.src))
    ic := 0#3
    oc := s.oc + 1#4 }

/-- Completion: the digest is the final `SRC` (R91, 90_conflicts.md C1), the flag is written with it (R109). -/
def complete (s : State) : State :=
  { s with dg := s.src.toWord, az := ambiguousFlag s.src.toWord, phase := .done }

/-- DSTEP (R92); performed by the block while `PHASE = DIFFUSE`, after which it needs nothing from the host.
With `OC` past 7 in DIFFUSE, where no run leads, it counts on as the 4-bit register does (log 9). -/
def dstep (s : State) : State :=
  if s.ic ≠ 7#3 then innerPass s
  else if s.oc + 1#4 = 8#4 then complete (lastPass s)
  else lastPass s

end Sys2Proof.Machine
end

