-- ==== Sys2Proof/Machine/Folder.lean ====
section
/-! DEFINITION. The folder: FOLDW and FOLDP (40_fold.md R76, R77). -/

namespace Sys2Proof.Machine

/-- FOLDW (R76): one full word into `ST`; `SEQ_FOLD` unless the stream is open. -/
def execFoldw (data : Word64) (s : State) : Host.Outcome State Fault Refusal :=
  whenHeard s (if s.phase = .absorb then { s with st := foldw s.st data } else protocolError .seqFold s)

/-- FOLDP (R77): the tail padded with fill bytes into `ST`, nothing for `n = 0`; the stream is closed; `SEQ_FOLD` unless it
is open. -/
def execFoldp (n : BitVec 3) (data : Word64) (s : State) : Host.Outcome State Fault Refusal :=
  whenHeard s
    (if s.phase = .absorb then
      { s with st := if n = 0#3 then s.st else foldw s.st (paddedTail n data), phase := .closed }
    else protocolError .seqFold s)

end Sys2Proof.Machine
end

