-- ==== Sys2Proof/Machine/Lifecycle.lean ====
section
/-! DEFINITION. The orchestrator's two commands: INIT and FIN (42_orchestrator.md R107, R108). -/

namespace Sys2Proof.Machine

/-- INIT (R107): seeds `ST`, clears `AZ`, opens the stream; legal in every phase that listens. -/
def execInit (s : State) : Host.Outcome State Fault Refusal :=
  whenHeard s { s with st := Config.initialState, az := false, phase := .absorb }

/-- FIN (R108): hands the bytes of `ST` to the Diffuser; `SEQ_FIN` unless a message has been started and not finished. -/
def execFin (s : State) : Host.Outcome State Fault Refusal :=
  whenHeard s
    (if s.phase = .absorb ∨ s.phase = .closed then
      { s with src := .ofWord s.st, oc := 0#4, ic := 0#3, phase := .diffuse }
    else protocolError .seqFin s)

end Sys2Proof.Machine
end

