-- ==== Sys2Proof/Machine/Dispatch.lean ====
section
/-! DEFINITION. One arm per command (42_orchestrator.md R111). -/

namespace Sys2Proof.Machine

def exec (i : Instr) (s : State) : Host.Outcome State Fault Refusal :=
  match i with
  | .init => Sys2Proof.Machine.execInit s
  | .foldw data => Sys2Proof.Machine.execFoldw data s
  | .foldp n data => Sys2Proof.Machine.execFoldp n data s
  | .fin => Sys2Proof.Machine.execFin s

end Sys2Proof.Machine
end

