-- ==== Sys2Proof/Machine/Edge.lean ====
section
/-! DEFINITION. The command step `Cmd(cw)` (42_orchestrator.md R111) and which of the three step kinds comes next (00_scope.md R10; 70_reset_and_hazards.md R146, R150). -/

namespace Sys2Proof.Machine

/-- `Cmd(cw)` (R111): nothing in FAULT, then decoding, then the command; an illegal word raises `ILLEGAL_CMD` (R126, R130). -/
def acceptWord (cw : CmdWord) (s : State) : Host.Outcome State Fault Refusal :=
  if s.phase = .fault then .next s
  else
    match decode cw with
    | .command i => exec i s
    | .illegal => whenHeard s (protocolError .illegalCmd s)

/-- One step, in the priority order of R150: Reset; in DIFFUSE one DSTEP; an accepted word; nothing. -/
def edgeStep (s : State) : Host.Outcome State Fault Refusal :=
  if s.pins.rst then .next (applyReset s.advanceInputs)
  else if s.phase = .diffuse then .next (dstep s.advanceInputs)
  else if s.pins.cmdValid then acceptWord s.pins.cmd s.advanceInputs
  else .next s.advanceInputs

end Sys2Proof.Machine
end

