-- ==== Sys2Proof/Machine/Step.lean ====
section
/-! DEFINITION. One step of the block, and placing a command word where the next step accepts it. -/

namespace Sys2Proof.Machine

/-- One step: Reset, DSTEP, an accepted command, or nothing (00_scope.md R10). -/
def step (s : State) : Host.Outcome State Fault Refusal := edgeStep s

/-- The host presents the table word `w` of `nbits` bits at the very next step. The block fetches nothing (20_memory.md R52):
a command is on the port or it is not. In DIFFUSE the word waits for the diffusion to end, as R110 says (log 6). -/
def State.withFetchWord (s : State) (nbits w : Nat) : State :=
  s.offer (BitVec.ofNat 72 (w % 2 ^ nbits))

end Sys2Proof.Machine
end

