-- ==== Sys2Proof/Machine/Reference.lean ====
section
/-! DEFINITION. The reference functions on whole messages: the fold contract (40_fold.md R70 to R75, R81), the whole transform (41_diffuse.md R93), the hash (42_orchestrator.md R114), the source's software loop (R116), the textual form of a digest (R15, R117). -/

namespace Sys2Proof.Machine

/-- The full words of a byte sequence, in order and big-endian, and the 0 to 7 bytes left over (20_memory.md R41, R42). -/
def splitWords : List Byte → List Word64 × List Byte
  | b0 :: b1 :: b2 :: b3 :: b4 :: b5 :: b6 :: b7 :: rest =>
    (be64 b0 b1 b2 b3 b4 b5 b6 b7 :: (splitWords rest).1, (splitWords rest).2)
  | tail => ([], tail)

/-- `be64` of a byte sequence of length 8. -/
def be64List : List Byte → Option Word64
  | [b0, b1, b2, b3, b4, b5, b6, b7] => some (be64 b0 b1 b2 b3 b4 b5 b6 b7)
  | _ => none

/-- `padword(t) = be64(t ++ rep(0x37, 8 - n))`, defined for `n` in 1..7 only (R71). -/
def padword (t : List Byte) : Option Word64 :=
  if 1 ≤ t.length ∧ t.length ≤ 7 then
    be64List (t ++ List.replicate (8 - t.length) Config.fillByte)
  else none

/-- Folds the full words of a chunk in order (R72). -/
def foldWords (st : Word64) (ws : List Word64) : Word64 := ws.foldl foldw st

/-- `fold_chunk(st, c, 1)`: a final chunk; its partial word, if it has one, is padded (R72, R73). -/
def foldFinalChunk (st : Word64) (c : List Byte) : Word64 :=
  match padword (splitWords c).2 with
  | some w => foldw (foldWords st (splitWords c).1) w
  | none => foldWords st (splitWords c).1

/-- `fold_chunk(st, c, final)`: refused for a non-final chunk whose length is no multiple of 8 (R72, R74, U1). -/
def foldChunk (st : Word64) (c : List Byte) (final : Bool) : Option Word64 :=
  if final then some (foldFinalChunk st c)
  else if c.length % 8 = 0 then some (foldWords st (splitWords c).1)
  else none

/-- `fold_msg(M) = fold_chunk(INITIAL_STATE, M, 1)` (R81). -/
def foldMsg (m : List Byte) : Word64 := foldFinalChunk Config.initialState m

/-- The Diffuser's two buffers, in the loop form of R93. -/
structure Buffers where
  src : Bytes8
  dst : Bytes8
  deriving DecidableEq, Repr

/-- One inner step of R93. -/
def Buffers.inner (b : Buffers) : Buffers := ⟨mirrorAdd (shiftIn b.src), shiftIn b.src⟩

/-- `k` inner steps, one after the other. -/
def Buffers.inners : Nat → Buffers → Buffers
  | 0, b => b
  | k + 1, b => Buffers.inners k b.inner

/-- One outer round of R93: the inner steps, then the mask on both buffers. -/
def Buffers.round (b : Buffers) : Buffers :=
  let e := Buffers.inners Config.innerRounds b
  ⟨maskSrc e.src, maskDst e.dst⟩

/-- `k` outer rounds, one after the other. -/
def Buffers.rounds : Nat → Buffers → Buffers
  | 0, b => b
  | k + 1, b => Buffers.rounds k b.round

/-- The final buffers for a state. `dst` starts as anything: it is written before it is read (R86), and the bytes of the
state stand in for it here. -/
def diffuseBuffers (state : Word64) : Buffers :=
  Buffers.rounds Config.outerRounds ⟨.ofWord state, .ofWord state⟩

/-- `diffuse(state)`: the digest is the final `src` (R91, R93). -/
def diffuse (state : Word64) : Word64 := (diffuseBuffers state).src.toWord

/-- `diffuse_dst(state)`: the final `dst`, shown by no port (R93). -/
def diffuseDst (state : Word64) : Word64 := (diffuseBuffers state).dst.toWord

/-- A digest and its flag, the pair a hash returns (R105). -/
structure HashResult where
  digest : Word64
  ambiguous : Bool
  deriving DecidableEq, Repr

/-- The pair for a folded state (R109, R114). -/
def hashOfState (st : Word64) : HashResult := ⟨diffuse st, ambiguousFlag (diffuse st)⟩

/-- `hash_bytes(M)`, what the hardware computes for a message (R114). -/
def hashBytes (m : List Byte) : HashResult := hashOfState (foldMsg m)

/-- The fold of the source's software loop: a read shorter than the chunk size counts as final, wherever it stands (R116). -/
def hasherFold (chunkSize : Nat) : Word64 → List (List Byte) → Option Word64
  | st, [] => some st
  | st, r :: rs => (foldChunk st r (decide (r.length < chunkSize))).bind fun st' => hasherFold chunkSize st' rs

/-- `HasherRef(r_1, ..., r_m)`: the source's loop, NOT what this hardware does (R116, 90_conflicts.md C2); `chunkSize` is its
`READ_CHUNK_SIZE` (U11). Refused where `fold_chunk` is (a full read of a length that is no multiple of 8), and for reads
the loop cannot see: an empty one, or one longer than was asked for (log 14). -/
def hasherRef (chunkSize : Nat) (reads : List (List Byte)) : Option HashResult :=
  if reads.all (fun r => decide (1 ≤ r.length ∧ r.length ≤ chunkSize)) then
    (hasherFold chunkSize Config.initialState reads).map hashOfState
  else none

/-- One lowercase hexadecimal digit (00_scope.md R15). -/
def hexDigit (v : BitVec 4) : Char :=
  if v.toNat < 10 then Char.ofNat (48 + v.toNat) else Char.ofNat (87 + v.toNat)

/-- Two digits per byte, high nibble first (R15). -/
def hexByte (b : Byte) : List Char := [hexDigit (b.extractLsb' 4 4), hexDigit (b.extractLsb' 0 4)]

/-- `hexstr(DG)`: 16 characters, byte 0 first (R15, R117). -/
def hexstr (v : Word64) : List Char := (Bytes8.ofWord v).toList.flatMap hexByte

/-- Cycles from INIT to `done` for a message of `len` bytes under the reference binding, the host never idling (R150). -/
def referenceCycles (len : Nat) : Nat := 2 + (len + 7) / 8 + Config.diffuseSteps

end Sys2Proof.Machine
end

