-- ==== Sys2Proof/Machine/Assembler.lean ====
section
/-! DEFINITION. The assembler's lines, their expansion into command words, and their text (30_encoding.md R64, R65). -/

namespace Sys2Proof.Machine

/-- One line of assembly: the four commands (R64), a raw word (R64), the pseudo-instructions (R65). -/
inductive AsmLine where
  | init
  | foldw (data : Word64)
  | foldp (n : BitVec 3) (data : Word64)
  | fin
  /-- `WORD`: 72 bits as given, legal or not. -/
  | word (cw : CmdWord)
  | msg (b : List Byte)
  | hash (b : List Byte)
  /-- `CHUNK`: a non-final chunk. -/
  | chunk (b : List Byte)
  /-- `CHUNKF`: a final chunk. -/
  | chunkf (b : List Byte)
  | close
  deriving DecidableEq, Repr

/-- The bytes of FOLDP's data that the block ignores are zeros, as the assembler requires (R64). -/
def ignoredBytesZero (n : BitVec 3) (data : Word64) : Bool :=
  ((Bytes8.ofWord data).toList.drop n.toNat).all (· == 0#8)

/-- FOLDP for a tail of 1 to 7 bytes, its ignored bytes written as zeros; nothing for an empty tail (R65). -/
def tailCommands (t : List Byte) : List Instr :=
  match t, be64List (t ++ List.replicate (8 - t.length) 0#8) with
  | [], _ => []
  | _ :: _, some w => [.foldp (BitVec.ofNat 3 t.length) w]
  | _ :: _, none => []

/-- The commands `MSG b` stands for (R65). -/
def msgCommands (b : List Byte) : List Instr :=
  (splitWords b).1.map Instr.foldw ++ tailCommands (splitWords b).2

/-- The commands `HASH b` stands for (R65). -/
def hashCommands (b : List Byte) : List Instr := .init :: (msgCommands b ++ [.fin])

/-- The words a line emits; `none` where the assembler refuses it (R64, R65). -/
def AsmLine.expand : AsmLine → Option (List CmdWord)
  | .init => some [encode .init]
  | .foldw data => some [encode (.foldw data)]
  | .foldp n data => if ignoredBytesZero n data then some [encode (.foldp n data)] else none
  | .fin => some [encode .fin]
  | .word cw => some [cw]
  | .msg b => some ((msgCommands b).map encode)
  | .hash b => some ((hashCommands b).map encode)
  | .chunk b => if b.length % 8 = 0 then some ((msgCommands b).map encode) else none
  | .chunkf b => some ((msgCommands b).map encode)
  | .close => some [encode (.foldp 0#3 0#64)]

/-- The words of a program, line after line; refused when a line is. -/
def assemble : List AsmLine → Option (List CmdWord)
  | [] => some []
  | l :: ls => l.expand.bind fun ws => (assemble ls).map fun rest => ws ++ rest

/-- A host that presents words one after the other, each until it is accepted (70_reset_and_hazards.md R148). -/
def presentAll (ws : List CmdWord) : List PortSample := ws.map .present

/-! The text of a line (R64). What the spec does not fix of it is log 13. -/

/-- The value of a hexadecimal digit; both cases are read (log 13). -/
def hexValue (c : Char) : Option Nat :=
  if 48 ≤ c.toNat ∧ c.toNat ≤ 57 then some (c.toNat - 48)
  else if 97 ≤ c.toNat ∧ c.toNat ≤ 102 then some (c.toNat - 87)
  else if 65 ≤ c.toNat ∧ c.toNat ≤ 70 then some (c.toNat - 55)
  else none

/-- Reads exactly `k` hexadecimal digits, most significant first. -/
def readHex : Nat → Nat → List Char → Option (Nat × List Char)
  | 0, acc, cs => some (acc, cs)
  | _ + 1, _, [] => none
  | k + 1, acc, c :: cs => (hexValue c).bind fun v => readHex k (16 * acc + v) cs

/-- Drops blanks. -/
def skipBlanks : List Char → List Char
  | [] => []
  | c :: cs => if c = ' ' then skipBlanks cs else c :: cs

/-- Reads `0x` and exactly `k` digits. -/
def readNumber (k : Nat) (cs : List Char) : Option (Nat × List Char) :=
  match skipBlanks cs with
  | '0' :: 'x' :: rest => readHex k 0 rest
  | _ => none

/-- Nothing is left of the line but blanks and a comment, which runs from `--` to its end (R64). -/
def lineEnds (cs : List Char) : Bool :=
  match skipBlanks cs with
  | [] => true
  | '-' :: '-' :: _ => true
  | _ => false

/-- The double quote. -/
def quoteMark : Char := Char.ofNat 34

/-- Reads the ASCII bytes of a quoted string up to its closing quote. -/
def readQuoted : List Char → Option (List Byte × List Char)
  | [] => none
  | c :: cs =>
    if c = quoteMark then some ([], cs)
    else if c.toNat < 128 then
      (readQuoted cs).map fun r => (BitVec.ofNat 8 c.toNat :: r.1, r.2)
    else none

/-- Reads pairs of hexadecimal digits for as long as they last. -/
def readHexPairs : List Char → Option (List Byte × List Char)
  | [] => some ([], [])
  | [c] => if (hexValue c).isSome then none else some ([], [c])
  | c :: d :: cs =>
    match hexValue c, hexValue d with
    | some h, some l => (readHexPairs cs).map fun r => (BitVec.ofNat 8 (16 * h + l) :: r.1, r.2)
    | some _, none => none
    | none, _ => some ([], c :: d :: cs)

/-- Reads the byte sequence of a pseudo-instruction: a quoted ASCII string, or a hexadecimal string of at least one byte. -/
def readBytes (cs : List Char) : Option (List Byte × List Char) :=
  match skipBlanks cs with
  | [] => none
  | c :: rest =>
    if c = quoteMark then readQuoted rest
    else if (hexValue c).isSome then readHexPairs (c :: rest)
    else none

/-- The line's operand has been read and nothing else stands on it. -/
def finish {α : Type} (f : α → AsmLine) (r : Option (α × List Char)) : Option AsmLine :=
  r.bind fun p => if lineEnds p.2 then some (f p.1) else none

/-- `FOLDP <n>, 0x...`: the count is one decimal digit 0 to 7 (R64). -/
def readFoldp (cs : List Char) : Option AsmLine :=
  match skipBlanks cs with
  | d :: ',' :: rest =>
    if 48 ≤ d.toNat ∧ d.toNat ≤ 55 then
      finish (fun v => .foldp (BitVec.ofNat 3 (d.toNat - 48)) (BitVec.ofNat 64 v)) (readNumber 16 rest)
    else none
  | _ => none

/-- The mnemonic and what follows it: the line up to the first blank or the end. -/
def splitMnemonic : List Char → List Char × List Char
  | [] => ([], [])
  | c :: cs => if c = ' ' then ([], cs) else ((c :: (splitMnemonic cs).1), (splitMnemonic cs).2)

/-- Reads one line of assembly (R64, R65); `none` for a line that is none. Mnemonics are upper case.
A line that holds only a comment, or nothing but blanks, is refused, as no rule says that such a line is allowed:
DESIGN CHOICE (log 13). -/
def parseLine (line : List Char) : Option AsmLine :=
  match splitMnemonic (skipBlanks line) with
  | (['I', 'N', 'I', 'T'], rest) => if lineEnds rest then some .init else none
  | (['F', 'I', 'N'], rest) => if lineEnds rest then some .fin else none
  | (['C', 'L', 'O', 'S', 'E'], rest) => if lineEnds rest then some .close else none
  | (['F', 'O', 'L', 'D', 'W'], rest) => finish (fun v => .foldw (BitVec.ofNat 64 v)) (readNumber 16 rest)
  | (['F', 'O', 'L', 'D', 'P'], rest) => readFoldp rest
  | (['W', 'O', 'R', 'D'], rest) => finish (fun v => .word (BitVec.ofNat 72 v)) (readNumber 18 rest)
  | (['M', 'S', 'G'], rest) => finish .msg (readBytes rest)
  | (['H', 'A', 'S', 'H'], rest) => finish .hash (readBytes rest)
  | (['C', 'H', 'U', 'N', 'K'], rest) => finish .chunk (readBytes rest)
  | (['C', 'H', 'U', 'N', 'K', 'F'], rest) => finish .chunkf (readBytes rest)
  | _ => none

end Sys2Proof.Machine
end

