-- ==== Sys2Proof/Machine/Outputs.lean ====
section
/-! DEFINITION. The codes of PHASE and ERRCODE and the output ports as functions of the registers (10_state.md R27, R29, R34, R35). -/

namespace Sys2Proof.Machine

/-- The 3-bit code of a phase (R27). -/
def Phase.code : Phase → BitVec 3
  | .idle => 0#3
  | .absorb => 1#3
  | .closed => 2#3
  | .diffuse => 3#3
  | .done => 4#3
  | .fault => 7#3

/-- The 2-bit code of an error (R29). -/
def ErrCode.code : ErrCode → BitVec 2
  | .none => 0#2
  | .illegalCmd => 1#2
  | .seqFold => 2#2
  | .seqFin => 3#2

/-- The eight output ports (R34). -/
structure Outputs where
  cmdReady : Bool
  done : Bool
  busy : Bool
  err : Bool
  errcode : BitVec 2
  phase : BitVec 3
  /-- `none` while `done = 0`: the port then has no value (R35, U4; log 8). -/
  digest : Option Word64
  ambiguous : Bool
  deriving DecidableEq, Repr

/-- `digest`: `DG` while `done = 1`, no value otherwise (R35). -/
def State.digest (s : State) : Option Word64 := if s.done then some s.dg else none

/-- `ambiguous = AZ and (PHASE == DONE)` (R34, 90_conflicts.md C7). -/
def State.ambiguous (s : State) : Bool := s.az && s.done

/-- What the host can read; a function of the registers alone (R34). -/
def State.outputs (s : State) : Outputs where
  cmdReady := s.cmdReady
  done := s.done
  busy := s.busy
  err := s.err
  errcode := s.errcode.code
  phase := s.phase.code
  digest := s.digest
  ambiguous := s.ambiguous

end Sys2Proof.Machine
end

