-- ==== Sys2Proof/Safety.lean ====
section
/-! DEFINITION. What counts as a sound state and how a run ends, in the terms claims use (10_state.md R38; 70_reset_and_hazards.md R149; 42_orchestrator.md R106). -/

namespace Sys2Proof.Machine

/-- The invariant of R38; `State.reset` has it and every step keeps it. Parts (a) and (b) hold by the types of the fields; these are (c) to (f). -/
structure StateInv (s : State) : Prop where
  /-- (c) "`0 <= OC <= 8`"; `IC <= 7` by its width. -/
  ocBound : s.oc ≤ 8#4
  /-- (c) "`PHASE = DIFFUSE` implies `OC <= 7`". -/
  diffuseCounts : s.phase = .diffuse → s.oc ≤ 7#4
  /-- (c) "`PHASE = DONE` implies `OC = 8` and `IC = 0`". -/
  doneCounts : s.phase = .done → s.oc = 8#4 ∧ s.ic = 0#3
  /-- (d) "`ERRCODE != 0` if and only if `PHASE = FAULT`". -/
  errorIffFault : s.errcode ≠ .none ↔ s.phase = .fault
  /-- (e) "`PHASE = DONE` implies `DG = be64(SRC[0..7])` and `AZ = (DG == AMBIG_DIGEST)`". -/
  doneDigest : s.phase = .done → s.dg = s.src.toWord ∧ s.az = ambiguousFlag s.dg
  /-- (f) "`AZ = 1` implies that `PHASE` is `DONE` or `FAULT`". -/
  flagPhases : s.az = true → s.phase = .done ∨ s.phase = .fault

/-- The command is accepted without error in the phase (10_state.md R27, last column of the table). -/
def legalIn : Phase → Instr → Bool
  | .idle, .init => true
  | .absorb, _ => true
  | .closed, .init => true
  | .closed, .fin => true
  | .done, .init => true
  | _, _ => false

/-- The word on the port is accepted at this step: `rst = 0`, `cmd_valid = 1`, `cmd_ready = 1` (42_orchestrator.md R110). -/
def State.accepts (s : State) : Bool := !s.pins.rst && s.pins.cmdValid && s.cmdReady

/-- The command the step performs: an accepted word that decodes to it, outside FAULT. -/
def State.performs (s : State) (i : Instr) : Prop :=
  s.accepts = true ∧ s.phase ≠ .fault ∧ decode s.pins.cmd = .command i

/-- The step performs DSTEP: no reset, and the diffusion runs (70_reset_and_hazards.md R150). -/
def State.diffuses (s : State) : Prop := s.pins.rst = false ∧ s.phase = .diffuse

/-- The step is taken as a protocol error (60_exceptions.md R126). -/
def State.errs (s : State) : Prop :=
  s.accepts = true ∧ s.phase.listens = true ∧
    (decode s.pins.cmd = .illegal ∨ ∃ i, decode s.pins.cmd = .command i ∧ legalIn s.phase i = false)

/-! How a run goes (R149). A run starts at an accepted INIT; a state shows whether one is in progress; the step that ends it
shows how. A protocol error outside a run, in IDLE or DONE, ends none. -/

/-- A run is in progress: INIT accepted, not completed, not abandoned, not faulted (R149). -/
def State.inRun (s : State) : Bool :=
  match s.phase with
  | .idle => false
  | .absorb => true
  | .closed => true
  | .diffuse => true
  | .done => false
  | .fault => false

/-- The next step starts a run: it performs INIT (R149). -/
def State.startsRun (s : State) : Bool :=
  s.accepts && s.phase.listens && (decode s.pins.cmd == .command .init)

/-- The next step abandons the run in progress: a Reset or an INIT accepted before completion (R149). -/
def State.abandons (s : State) : Bool := s.inRun && (s.pins.rst || s.startsRun)

/-- The three ways a run ends (R149). -/
inductive RunEnd where
  /-- The 64th DSTEP; the result is the pair (`DG`, `AZ`). -/
  | completed (digest : Word64) (ambiguous : Bool)
  /-- An INIT or a Reset before completion. -/
  | abandoned
  /-- A protocol error in the run. -/
  | faulted (code : ErrCode)
  deriving DecidableEq, Repr

/-- The result of a run that ended: only a completed one has a result (R149). -/
def RunEnd.result : RunEnd → Option (Word64 × Bool)
  | .completed digest ambiguous => some (digest, ambiguous)
  | .abandoned => none
  | .faulted _ => none

/-- How the next step, which leads to `t`, ends the run in progress; `none` where no run is in progress or it goes on (R149). -/
def State.runEndAt (s t : State) : Option RunEnd :=
  if s.abandons then some .abandoned
  else if s.inRun then
    match t.phase with
    | .idle => none
    | .absorb => none
    | .closed => none
    | .diffuse => none
    | .done => some (.completed t.dg t.az)
    | .fault => some (.faulted t.errcode)
  else none

/-- How the next step ends the run in progress, if it does (R149). -/
def State.runEnd (s : State) : Option RunEnd :=
  match step s with
  | .next t => s.runEndAt t
  | .fault _ => none
  | .refused _ => none

/-- `8*OC + IC`: while `PHASE = DIFFUSE`, the number of DSTEPs since FIN (10_state.md R25). -/
def State.stepsDone (s : State) : Nat := 8 * s.oc.toNat + s.ic.toNat

/-- The host asserts no reset in what it will drive. -/
def State.noResetAhead (s : State) : Bool := s.inputs.all fun e => !e.rst

/-- `k` steps of the machine. -/
def runSteps (k : Nat) (s : State) : Host.Outcome State Fault Refusal := Host.Core.run Sys2Proof.core k s

/-- How many runs start in the next `k` steps (R149). -/
def runStarts : Nat → State → Nat
  | 0, _ => 0
  | k + 1, s =>
    match step s with
    | .next t => s.startsRun.toNat + runStarts k t
    | .fault _ => 0
    | .refused _ => 0

/-- The ends of the runs that end in the next `k` steps, in order (R149). -/
def runEnds : Nat → State → List RunEnd
  | 0, _ => []
  | k + 1, s =>
    match step s with
    | .next t => s.runEnd.toList ++ runEnds k t
    | .fault _ => []
    | .refused _ => []

end Sys2Proof.Machine
end

