-- ==== Sys2Proof/Certificates/Slice0/Obligations.lean ====
section
/-! DEFINITION. The statements about the block, for the provers. Each docstring names the rule of spec/ it formalises. -/

open Sys2Proof Sys2Proof.Machine

/-! ### Encoding -/

/-- R66: the words of the four commands, `decode(enc(c)) = c`, when `enc(decode(cw)) = cw`, and FOLDP words that differ only in
ignored bytes. -/
def Obligations.EncodeDecodeRoundTrip : Prop :=
  encode .init = 0x10#72 <<< 64 ∧
  (∀ d : Word64, encode (.foldw d) = (0x20#72 <<< 64) ||| d.setWidth 72) ∧
  (∀ (n : BitVec 3) (d : Word64), encode (.foldp n d) = ((0x30#72 ||| n.setWidth 72) <<< 64) ||| d.setWidth 72) ∧
  encode .fin = 0x40#72 <<< 64 ∧
  (∀ i : Instr, decode (encode i) = .command i) ∧
  (∀ (cw : CmdWord) (d : Word64), decode cw = .command (.foldw d) → encode (.foldw d) = cw) ∧
  (∀ (cw : CmdWord) (n : BitVec 3) (d : Word64), decode cw = .command (.foldp n d) → encode (.foldp n d) = cw) ∧
  (∀ cw : CmdWord, decode cw = .command .init → (encode .init = cw ↔ cw.extractLsb' 0 64 = 0#64)) ∧
  (∀ cw : CmdWord, decode cw = .command .fin → (encode .fin = cw ↔ cw.extractLsb' 0 64 = 0#64)) ∧
  (∀ (cw cw' : CmdWord) (n : BitVec 3) (d d' : Word64),
    decode cw = .command (.foldp n d) → decode cw' = .command (.foldp n d') → cw ≠ cw' →
    (∀ i : Fin 8, i.val < n.toNat → byteAt d i = byteAt d' i) →
    Instr.foldp n d ≠ Instr.foldp n d' ∧ ∀ s : State, exec (.foldp n d) s = exec (.foldp n d') s)

/-- R57, R58: a word selects at most one row of the opcode map, the row of the command it decodes to; it decodes to none exactly
when its fields are not well formed; the data of INIT and FIN words is ignored. -/
def Obligations.OpcodeMapAgreesWithDecoder : Prop :=
  (∀ cw : CmdWord, (opcodeMap.filter (·.selects cw)).map (·.mnemonic) =
    match decode cw with
    | .command i => [i.mnemonic]
    | .illegal => []) ∧
  (∀ cw : CmdWord, decode cw = .illegal ↔ (fieldsOf cw).wellFormed = false) ∧
  (∀ d : Word64, decode (0x10#8 ++ d) = .command .init ∧ decode (0x40#8 ++ d) = .command .fin)

/-- R60: the illegal control bytes, 245 of 256, and what accepting an illegal word does; its data plays no part. -/
def Obligations.IllegalWordsRaiseIllegalCmd : Prop :=
  (∀ (cb : Byte) (d : Word64), decode (cb ++ d) = .illegal ↔
    ¬ (cb = 0x10#8 ∨ cb = 0x20#8 ∨ (0x30#8 ≤ cb ∧ cb ≤ 0x37#8) ∨ cb = 0x40#8)) ∧
  ((List.range 256).filter fun v => decode (BitVec.ofNat 8 v ++ (0#64 : Word64)) == .illegal).length = 245 ∧
  decode 0#72 = .illegal ∧ decode (BitVec.allOnes 72) = .illegal ∧
  (∀ s : State, s.accepts = true → s.phase ≠ .fault → decode s.pins.cmd = .illegal →
    step s = .next { s with errcode := .illegalCmd, phase := .fault, inputs := s.inputs.tail })

/-- R67, R63: the worked encodings decode to what they stand for (a sanity statement). -/
def Obligations.WorkedEncodingsDecode : Prop :=
  decode 0x100000000000000000#72 = .command .init ∧
  decode 0x2068656c6c6f20776f#72 = .command (.foldw 0x68656c6c6f20776f#64) ∧
  decode 0x35726c642121000000#72 = .command (.foldp 5#3 0x726c642121000000#64) ∧
  decode 0x300000000000000000#72 = .command (.foldp 0#3 0#64) ∧
  decode 0x400000000000000000#72 = .command .fin ∧
  decode 0x280000000000000000#72 = .illegal

/-! ### The commands -/

/-- R107: INIT in every phase, its encoding, and INIT twice. -/
def Obligations.InitSeedsTheState : Prop :=
  (∀ s : State, s.phase = .idle ∨ s.phase = .absorb ∨ s.phase = .closed ∨ s.phase = .done →
    exec .init s = .next { s with st := 0x1c98c677de371c7d#64, az := false, phase := .absorb }) ∧
  (∀ s : State, s.phase = .fault → exec .init s = .next s) ∧
  (∀ s : State, s.phase = .diffuse → s.accepts = false) ∧
  (∀ d : Word64, decode (0x10#8 ++ d) = .command .init) ∧
  (∀ s t : State, exec .init s = .next t → exec .init t = .next t) ∧
  (∀ s t : State, s.phase ≠ .diffuse → exec .init s = .next t → t.outputs.done = false) ∧
  (∀ (s : State) (v : Word64), s.phase = .absorb ∨ s.phase = .closed → exec .init { s with st := v } = exec .init s) ∧
  (∀ s t : State, s.phase = .idle ∨ s.phase = .done → s.pins.rst = false → step s = .next t →
    t.phase ≠ s.phase → t.phase ≠ .fault → s.performs .init)

/-- R76: FOLDW in every phase, its encoding, and its corner cases. -/
def Obligations.FoldwXorsOneWord : Prop :=
  (∀ (d : Word64) (s : State), s.phase = .absorb → exec (.foldw d) s = .next { s with st := s.st ^^^ d }) ∧
  (∀ (d : Word64) (s : State), s.phase = .idle ∨ s.phase = .closed ∨ s.phase = .done →
    exec (.foldw d) s = .next { s with errcode := .seqFold, phase := .fault }) ∧
  (∀ (d : Word64) (s : State), s.phase = .fault → exec (.foldw d) s = .next s) ∧
  (∀ s : State, s.phase = .diffuse → s.accepts = false) ∧
  (∀ d : Word64, decode (0x20#8 ++ d) = .command (.foldw d)) ∧
  (∀ s : State, s.phase = .absorb → exec (.foldw 0#64) s = .next s) ∧
  (∀ s : State, s.phase = .absorb → exec (.foldw s.st) s = .next { s with st := 0#64 }) ∧
  (∀ (d : Word64) (s t : State), s.phase = .absorb → exec (.foldw d) s = .next t → exec (.foldw d) t = .next s) ∧
  (∀ s : State, s.phase = .absorb → s.st = 0x1c98c677de371c7d#64 →
    exec (.foldw 0x68656c6c6f20776f#64) s = .next { s with st := 0x74fdaa1bb1176b12#64 })

/-- R77: FOLDP in every phase and for every count, written out per byte, its encoding, and its corner cases. -/
def Obligations.FoldpFoldsPaddedTailAndCloses : Prop :=
  (∀ (n : BitVec 3) (d : Word64) (s : State), s.phase = .absorb → n ≠ 0#3 →
    ∃ w : Word64, padword (tailBytes n d) = some w ∧
      exec (.foldp n d) s = .next { s with st := s.st ^^^ w, phase := .closed } ∧
      ∀ i : Fin 8, byteAt (s.st ^^^ w) i =
        byteAt s.st i ^^^ (if i.val < n.toNat then byteAt d i else 0x37#8)) ∧
  (∀ (d : Word64) (s : State), s.phase = .absorb → exec (.foldp 0#3 d) s = .next { s with phase := .closed }) ∧
  (∀ (n : BitVec 3) (d : Word64) (s : State), s.phase = .idle ∨ s.phase = .closed ∨ s.phase = .done →
    exec (.foldp n d) s = .next { s with errcode := .seqFold, phase := .fault }) ∧
  (∀ (n : BitVec 3) (d : Word64) (s : State), s.phase = .fault → exec (.foldp n d) s = .next s) ∧
  (∀ s : State, s.phase = .diffuse → s.accepts = false) ∧
  (∀ (n : BitVec 3) (d : Word64), decode ((0x30#8 ||| n.setWidth 8) ++ d) = .command (.foldp n d)) ∧
  (∀ (n : BitVec 3) (d d' : Word64), (∀ i : Fin 8, i.val < n.toNat → byteAt d i = byteAt d' i) →
    ∀ s : State, exec (.foldp n d) s = exec (.foldp n d') s) ∧
  (∀ (n : BitVec 3) (d : Word64) (s : State), s.phase = .absorb → n ≠ 0#3 →
    (∀ i : Fin 8, i.val < n.toNat → byteAt d i = 0x37#8) →
    exec (.foldp n d) s = .next { s with st := s.st ^^^ 0x3737373737373737#64, phase := .closed }) ∧
  (∀ s : State, s.phase = .absorb → s.st = 0x74fdaa1bb1176b12#64 →
    padword (tailBytes 5#3 0x726c642121000000#64) = some 0x726c642121373737#64 ∧
    exec (.foldp 5#3 0x726c642121000000#64) s = .next { s with st := 0x0691ce3a90205c25#64, phase := .closed }) ∧
  (∀ (i : Instr) (s t : State), s.phase = .closed → exec i s = .next t → (t.phase ≠ .fault ↔ i = .init ∨ i = .fin))

/-- R108: FIN in every phase, its encoding, and its example. -/
def Obligations.FinHandsTheStateToTheDiffuser : Prop :=
  (∀ s : State, s.phase = .absorb ∨ s.phase = .closed →
    ∃ t : State, exec .fin s = .next t ∧
      t = { s with src := t.src, oc := 0#4, ic := 0#3, phase := .diffuse } ∧
      ∀ i : Fin 8, t.src.get i = byteAt s.st i) ∧
  (∀ s : State, s.phase = .idle ∨ s.phase = .done →
    exec .fin s = .next { s with errcode := .seqFin, phase := .fault }) ∧
  (∀ s : State, s.phase = .fault → exec .fin s = .next s) ∧
  (∀ s : State, s.phase = .diffuse → s.accepts = false) ∧
  (∀ d : Word64, decode (0x40#8 ++ d) = .command .fin) ∧
  (∀ s : State, s.phase = .absorb → s.st = 0x1c98c677de371c7d#64 → s.noResetAhead = true →
    exec .fin s = .next { s with
      src := ⟨0x1c#8, 0x98#8, 0xc6#8, 0x77#8, 0xde#8, 0x37#8, 0x1c#8, 0x7d#8⟩, oc := 0#4, ic := 0#3, phase := .diffuse } ∧
    ∃ t u : State, exec .fin s = .next t ∧ runSteps 64 t = .next u ∧
      u.dg = 0xb4bb4023dcbf444b#64 ∧ u.az = true ∧ u.phase = .done)

/-- R27, last column: a command accepted in a phase raises an error exactly where the table does not list it. -/
def Obligations.CommandFaultsExactlyWhereIllegal : Prop :=
  ∀ (i : Instr) (s : State), s.phase ≠ .diffuse → s.phase ≠ .fault →
    ∃ t : State, exec i s = .next t ∧ (t.phase = .fault ↔ legalIn s.phase i = false)

/-! ### The micro-step -/

/-- R92: DSTEP in full, byte by byte; it is enabled in DIFFUSE only; exactly 64 lead from FIN to DONE. -/
def Obligations.DstepFollowsTheRule : Prop :=
  (∀ s : State, s.pins.rst = false → s.phase = .diffuse →
    ∃ t : State, step s = .next t ∧
      t.st = s.st ∧ t.errcode = s.errcode ∧ t.freeIndex = s.freeIndex ∧
      let fb := s.src.get 0 ^^^ s.src.get 1 ^^^ s.src.get 2 ^^^ s.src.get 3 ^^^
        s.src.get 4 ^^^ s.src.get 5 ^^^ s.src.get 6 ^^^ s.src.get 7
      let d : Fin 8 → Byte := fun k => if k = 7 then fb else s.src.get (k + 1)
      let m : Fin 8 → Byte := fun k => d k + d (7 - k)
      (s.ic ≠ 7#3 →
        (∀ k, t.dst.get k = d k ∧ t.src.get k = m k) ∧
        t.ic = s.ic + 1#3 ∧ t.oc = s.oc ∧ t.dg = s.dg ∧ t.az = s.az ∧ t.phase = .diffuse) ∧
      (s.ic = 7#3 →
        (∀ k : Fin 8, t.src.get k = (if k.val % 2 = 0 then m k ^^^ 0xff#8 else m k) ∧
          t.dst.get k = (if k.val % 2 = 0 then d k else d k ^^^ 0xff#8)) ∧
        t.ic = 0#3 ∧ t.oc = s.oc + 1#4 ∧
        (s.oc + 1#4 = 8#4 →
          (∀ k, byteAt t.dg k = t.src.get k) ∧ t.az = (t.dg == 0xb4bb4023dcbf444b#64) ∧ t.phase = .done) ∧
        (s.oc + 1#4 ≠ 8#4 → t.dg = s.dg ∧ t.az = s.az ∧ t.phase = .diffuse))) ∧
  (∀ s t : State, s.pins.rst = false → s.phase ≠ .diffuse → step s = .next t → t.dst = s.dst ∧ t.dg = s.dg) ∧
  (∀ s t : State, s.noResetAhead = true → s.phase = .absorb ∨ s.phase = .closed → exec .fin s = .next t →
    (∀ k : Nat, k < 64 → ∃ u : State, runSteps k t = .next u ∧ u.phase = .diffuse) ∧
    ∃ u : State, runSteps 64 t = .next u ∧ u.phase = .done)

/-- R96: after a DSTEP and before the mask `SRC` reads the same both ways; from then on the feedback byte is 0, with or
without the mask: whatever step leads to a state in DIFFUSE that has made a DSTEP since FIN, the feedback of the next is 0.
And so `DST[7] = 0xFF` after the mask of every round. -/
def Obligations.DiffuserPalindrome : Prop :=
  (∀ (s t : State), s.pins.rst = false → s.phase = .diffuse → step s = .next t →
    (s.ic ≠ 7#3 → ∀ k : Fin 8, t.src.get k = t.src.get (7 - k)) ∧
    (s.ic = 7#3 → ∀ k : Fin 8, t.src.get k = t.src.get (7 - k) ^^^ 0xff#8) ∧
    feedback t.src = 0#8) ∧
  (∀ (s t : State), s.pins.rst = false → s.phase = .diffuse → step s = .next t →
    feedback s.src = 0#8 → s.ic = 7#3 → t.dst.get 7 = 0xff#8) ∧
  (∀ s t : State, step s = .next t → t.phase = .diffuse → t.stepsDone ≠ 0 → feedback t.src = 0#8) ∧
  (∀ r s t : State, step r = .next s → s.pins.rst = false → s.phase = .diffuse → s.ic = 7#3 → step s = .next t →
    t.dst.get 7 = 0xff#8) ∧
  (∀ s t : State, s.phase = .absorb ∨ s.phase = .closed → s.noResetAhead = true → exec .fin s = .next t →
    ∀ o : Nat, o < 8 → ∃ u : State, runSteps (8 * o + 8) t = .next u ∧ feedback u.src = 0#8 ∧ u.dst.get 7 = 0xff#8)

/-- R95: FIN and 64 DSTEPs compute the whole transform, whatever the host drives meanwhile short of a reset. -/
def Obligations.FinAndDstepsComputeDiffuse : Prop :=
  ∀ (s : State) (rest : List PortSample), s.phase = .absorb ∨ s.phase = .closed →
    s.inputs = .present (encode .fin) :: rest → s.noResetAhead = true →
    ∃ t : State, runSteps 65 s = .next t ∧
      t.phase = .done ∧ t.dg = diffuse s.st ∧
      (∀ i : Fin 8, t.src.get i = byteAt (diffuse s.st) i ∧ t.dst.get i = byteAt (diffuseDst s.st) i) ∧
      t.oc = 8#4 ∧ t.ic = 0#3 ∧ t.az = (diffuse s.st == 0xb4bb4023dcbf444b#64) ∧ t.st = s.st

/-- R158: progress; each DSTEP counts one, and DONE comes after exactly as many as are left of 64. -/
def Obligations.DiffusionEndsAfterExactly64Steps : Prop :=
  ∀ s : State, StateInv s → s.phase = .diffuse → s.noResetAhead = true →
    s.stepsDone ≤ 63 ∧
    (∀ k : Nat, k < 64 - s.stepsDone →
      ∃ t : State, runSteps k s = .next t ∧ t.phase = .diffuse ∧ t.stepsDone = s.stepsDone + k) ∧
    ∃ t : State, runSteps (64 - s.stepsDone) s = .next t ∧ t.phase = .done

/-- R97: the shape of every digest, and so at most 2^32 of them, with distinct states that share one. -/
def Obligations.DigestMirrorsItself : Prop :=
  (∀ (v : Word64) (k : Fin 8), k.val ≤ 3 → byteAt (diffuse v) (7 - k) = byteAt (diffuse v) k ^^^ 0xff#8) ∧
  (∀ v w : Word64, (diffuse v).extractLsb' 32 32 = (diffuse w).extractLsb' 32 32 → diffuse v = diffuse w) ∧
  (∃ v w : Word64, v ≠ w ∧ diffuse v = diffuse w)

/-- R98: the first DSTEP's bytes; the digest sees `S0` and `S1` only through one byte; bit 55 never changes it. -/
def Obligations.DigestBlindToFirstBytes : Prop :=
  (∀ (s t : State), s.pins.rst = false → s.phase = .diffuse → s.oc = 0#4 → s.ic = 0#3 → step s = .next t →
    let x := s.src.get 2 ^^^ s.src.get 3 ^^^ s.src.get 4 ^^^ s.src.get 5 ^^^ s.src.get 6 ^^^ s.src.get 7
    t.src.get 0 = s.src.get 1 + (s.src.get 0 ^^^ s.src.get 1 ^^^ x) ∧ t.src.get 7 = t.src.get 0 ∧
    ∀ k : Fin 8, 1 ≤ k.val → k.val ≤ 6 → t.src.get k = s.src.get (k + 1) + s.src.get (0 - k)) ∧
  (∀ v w : Word64, (∀ i : Fin 8, 2 ≤ i.val → byteAt v i = byteAt w i) →
    (let x := byteAt v 2 ^^^ byteAt v 3 ^^^ byteAt v 4 ^^^ byteAt v 5 ^^^ byteAt v 6 ^^^ byteAt v 7
     byteAt v 1 + (byteAt v 0 ^^^ byteAt v 1 ^^^ x) = byteAt w 1 + (byteAt w 0 ^^^ byteAt w 1 ^^^ x)) →
    diffuse v = diffuse w) ∧
  (∀ v : Word64, diffuse v = diffuse (v ^^^ 0x0080000000000000#64))

/-- R91: the digest is the final `src`, audited by the one vector of the source; the final `dst` is another value. -/
def Obligations.DigestIsFinalSrc : Prop :=
  diffuse 0x1c98c677de371c7d#64 = 0xb4bb4023dcbf444b#64 ∧ diffuseDst 0x1c98c677de371c7d#64 = 0x4b50748bafb40cff#64

/-! ### The phase machine, errors and reset -/

/-- R106: every transition of PHASE, with the error code where the step is a protocol error. -/
def Obligations.PhaseTable : Prop :=
  ∀ s t : State, step s = .next t →
    (s.pins.rst = true → t.phase = .idle) ∧
    (s.pins.rst = false → s.phase = .diffuse →
      t.phase = (if s.ic = 7#3 ∧ s.oc = 7#4 then .done else .diffuse)) ∧
    (s.accepts = true →
      (s.phase = .fault → t = { s with inputs := s.inputs.tail }) ∧
      (s.phase ≠ .fault → decode s.pins.cmd = .illegal → t.phase = .fault ∧ t.errcode = .illegalCmd) ∧
      (s.phase ≠ .fault → decode s.pins.cmd = .command .init → t.phase = .absorb) ∧
      (∀ d, s.phase = .absorb → decode s.pins.cmd = .command (.foldw d) → t.phase = .absorb) ∧
      (∀ n d, s.phase = .absorb → decode s.pins.cmd = .command (.foldp n d) → t.phase = .closed) ∧
      (∀ d, s.phase = .idle ∨ s.phase = .closed ∨ s.phase = .done → decode s.pins.cmd = .command (.foldw d) →
        t.phase = .fault ∧ t.errcode = .seqFold) ∧
      (∀ n d, s.phase = .idle ∨ s.phase = .closed ∨ s.phase = .done → decode s.pins.cmd = .command (.foldp n d) →
        t.phase = .fault ∧ t.errcode = .seqFold) ∧
      (s.phase = .absorb ∨ s.phase = .closed → decode s.pins.cmd = .command .fin → t.phase = .diffuse) ∧
      (s.phase = .idle ∨ s.phase = .done → decode s.pins.cmd = .command .fin →
        t.phase = .fault ∧ t.errcode = .seqFin)) ∧
    (s.pins.rst = false → s.pins.cmdValid = false → s.phase ≠ .diffuse → t.phase = s.phase)

/-- R128: a protocol error writes ERRCODE and PHASE and nothing else, the word is consumed, and the outputs follow. -/
def Obligations.ProtocolErrorIsPrecise : Prop :=
  ∀ s : State, s.errs →
    ∃ code : ErrCode, code ≠ .none ∧
      step s = .next { s with errcode := code, phase := .fault, inputs := s.inputs.tail } ∧
      State.outputs { s with errcode := code, phase := .fault, inputs := s.inputs.tail } =
        { cmdReady := true, done := false, busy := false, err := true, errcode := code.code, phase := 7#3,
          digest := none, ambiguous := false }

/-- R126, R127: which cause leaves which code, and nothing else does. -/
def Obligations.ErrorCodesNameTheirCause : Prop :=
  ErrCode.none.code = 0#2 ∧ ErrCode.illegalCmd.code = 1#2 ∧ ErrCode.seqFold.code = 2#2 ∧ ErrCode.seqFin.code = 3#2 ∧
  ∀ s t : State, s.errcode = .none → s.phase ≠ .fault → step s = .next t →
    (t.errcode = .illegalCmd ↔ s.accepts = true ∧ decode s.pins.cmd = .illegal) ∧
    (t.errcode = .seqFold ↔ s.accepts = true ∧ (s.phase = .idle ∨ s.phase = .closed ∨ s.phase = .done) ∧
      ∃ i, decode s.pins.cmd = .command i ∧ ((∃ d, i = .foldw d) ∨ ∃ n d, i = .foldp n d)) ∧
    (t.errcode = .seqFin ↔ s.accepts = true ∧ (s.phase = .idle ∨ s.phase = .done) ∧
      decode s.pins.cmd = .command .fin)

/-- R129: FAULT accepts every word and does nothing with it, for as long as no reset comes; the first code is kept and no
digest appears. -/
def Obligations.FaultIgnoresEveryWord : Prop :=
  ∀ (s : State) (k : Nat), s.phase = .fault → s.noResetAhead = true →
    ∃ t : State, runSteps k s = .next t ∧ t = { s with inputs := s.inputs.drop k } ∧
      t.outputs = { cmdReady := true, done := false, busy := false, err := true, errcode := s.errcode.code, phase := 7#3,
                    digest := none, ambiguous := false }

/-- R132: Reset is the only exit from FAULT; it clears ERRCODE and puts the block in IDLE. No command leaves it, INIT no more
than another, and a second error is no event. -/
def Obligations.OnlyResetLeavesFault : Prop :=
  (∀ s t : State, s.phase = .fault → step s = .next t → t.phase ≠ .fault → s.pins.rst = true) ∧
  (∀ s : State, s.phase = .fault → s.pins.rst = true →
    ∃ t : State, step s = .next t ∧ t.phase = .idle ∧ t.errcode = .none) ∧
  (∀ (i : Instr) (s : State), s.phase = .fault → exec i s = .next s) ∧
  (∀ s : State, s.phase = .fault → s.accepts = true → decode s.pins.cmd = .illegal →
    step s = .next { s with inputs := s.inputs.tail })

/-- R145, R146: Reset in any phase and whatever else is on the port: the control registers cleared, no command accepted, no
DSTEP. That a sample with `rst = 1` is taken off the host's list, whatever word it carries, is the model's choice (log 3).
Nothing is said of the data registers, which hold free values (log 1). -/
def Obligations.ResetClearsControlRegisters : Prop :=
  ∀ s : State, s.pins.rst = true →
    ∃ t : State, step s = .next t ∧ t.phase = .idle ∧ t.errcode = .none ∧ t.az = false ∧ t.oc = 0#4 ∧ t.ic = 0#3 ∧
      t.inputs = s.inputs.tail ∧ s.accepts = false

/-- R36: the registers whose reset value the spec gives, and the outputs after reset. -/
def Obligations.ResetValues : Prop :=
  State.reset.phase = .idle ∧ State.reset.errcode = .none ∧ State.reset.az = false ∧
  State.reset.oc = 0#4 ∧ State.reset.ic = 0#3 ∧
  State.reset.outputs = { cmdReady := true, done := false, busy := false, err := false, errcode := 0#2, phase := 0#3,
                          digest := none, ambiguous := false }

/-- R130: the order of the checks on one word, and the spec's example. -/
def Obligations.ChecksAreOrdered : Prop :=
  (∀ s t : State, s.pins.rst = true → step s = .next t → t.phase = .idle ∧ s.accepts = false) ∧
  (∀ s : State, s.phase = .fault → s.accepts = true → step s = .next { s with inputs := s.inputs.tail }) ∧
  (∀ s t : State, s.accepts = true → s.phase ≠ .fault → decode s.pins.cmd = .illegal → step s = .next t →
    t.errcode = .illegalCmd) ∧
  (∀ (s t : State) (i : Instr), s.accepts = true → s.phase ≠ .fault → decode s.pins.cmd = .command i →
    legalIn s.phase i = false → step s = .next t → t.errcode = .seqFold ∨ t.errcode = .seqFin) ∧
  (∀ s t : State, s.accepts = true → s.phase = .idle → s.pins.cmd = 0x280000000000000000#72 → step s = .next t →
    t.errcode = .illegalCmd)

/-- R27, R34, R35: the codes of the phases, the output ports as functions of the registers; the digest does not change while `done = 1` until an accepted
INIT or a reset. -/
def Obligations.OutputPorts : Prop :=
  (Phase.idle.code = 0#3 ∧ Phase.absorb.code = 1#3 ∧ Phase.closed.code = 2#3 ∧ Phase.diffuse.code = 3#3 ∧
    Phase.done.code = 4#3 ∧ Phase.fault.code = 7#3) ∧
  (∀ s : State,
    s.outputs.cmdReady = (s.phase != .diffuse) ∧ s.outputs.done = (s.phase == .done) ∧
    s.outputs.busy = (s.phase == .diffuse) ∧ s.outputs.err = (s.phase == .fault) ∧
    s.outputs.errcode = s.errcode.code ∧ s.outputs.phase = s.phase.code ∧
    s.outputs.digest = (if s.phase = .done then some s.dg else none) ∧
    s.outputs.ambiguous = (s.az && s.phase == .done)) ∧
  (∀ s t : State, s.phase = .done → step s = .next t → s.pins.rst = false → ¬ s.performs .init → t.dg = s.dg) ∧
  (∀ s t : State, s.phase = .done → step s = .next t → s.pins.rst = false → s.accepts = false →
    t.outputs = s.outputs)

/-! ### The whole machine -/

/-- R111: a step accepts the word on the port and performs the command it decodes to, the host moving on to its next sample;
a word that is placed is the one performed. -/
def Obligations.StepRunsTheDecodedCommand : Prop :=
  (∀ (s : State) (i : Instr), s.accepts = true → decode s.pins.cmd = .command i →
    step s = exec i { s with inputs := s.inputs.tail }) ∧
  (∀ (s : State) (nbits w : Nat) (i : Instr), s.phase ≠ .diffuse → decodeTableWord nbits w = some i →
    step (s.withFetchWord nbits w) = exec i s)

/-- R125, R78: no step stops, whatever the data: every state has a next state. -/
def Obligations.EveryStateHasANextState : Prop := ∀ s : State, ∃ t : State, step s = .next t

/-- R38: the invariant after reset. -/
def Obligations.ResetStateHasInvariant : Prop := StateInv State.reset

/-- R38: a Reset step gives the invariant from any state, and every step keeps it, whatever the host drives. -/
def Obligations.StepKeepsInvariant : Prop :=
  (∀ s t : State, s.pins.rst = true → step s = .next t → StateInv t) ∧
  (∀ s t : State, StateInv s → step s = .next t → StateInv t)

/-- R20: who writes each register. In every step a register changes only where the table of R20 lists the writer; Reset, which
leaves the data registers unspecified, is a writer of all. -/
def Obligations.OnlyListedWritersWrite : Prop :=
  ∀ s t : State, step s = .next t → s.pins.rst = false →
    (t.st ≠ s.st → s.performs .init ∨ (∃ d, s.performs (.foldw d)) ∨ ∃ n d, s.performs (.foldp n d)) ∧
    (t.src ≠ s.src → s.performs .fin ∨ s.diffuses) ∧
    (t.dst ≠ s.dst → s.diffuses) ∧
    (t.dg ≠ s.dg → s.diffuses ∧ s.oc = 7#4 ∧ s.ic = 7#3) ∧
    (t.az ≠ s.az → s.performs .init ∨ (s.diffuses ∧ s.oc = 7#4 ∧ s.ic = 7#3)) ∧
    (t.oc ≠ s.oc → s.performs .fin ∨ (s.diffuses ∧ s.ic = 7#3)) ∧
    (t.ic ≠ s.ic → s.performs .fin ∨ s.diffuses) ∧
    (t.errcode ≠ s.errcode → s.errs) ∧
    t.freeIndex = s.freeIndex

/-- R110, R151: while the Diffuser runs no word is accepted and what is on the port changes no register; a word the host
keeps is still on the port after the step (what the host keeps is in its list of samples, log 3). Where nothing is presented
and no diffusion runs, no register changes (H3 of R156). -/
def Obligations.WordsWaitForTheDiffuser : Prop :=
  (∀ s : State, s.accepts = true ↔ s.pins.rst = false ∧ s.pins.cmdValid = true ∧ s.phase ≠ .diffuse) ∧
  (∀ (s : State) (e e' : PortSample) (rest : List PortSample) (t t' : State),
    s.phase = .diffuse → e.rst = false → e'.rst = false →
    step { s with inputs := e :: rest } = .next t → step { s with inputs := e' :: rest } = .next t' →
    { t with inputs := [] } = { t' with inputs := [] }) ∧
  (∀ (s : State) (e : PortSample) (rest : List PortSample) (t : State),
    s.phase = .diffuse → e.rst = false → e.cmdValid = true → e.hold = true →
    step { s with inputs := e :: rest } = .next t → t.inputs = e :: rest) ∧
  (∀ s : State, s.pins.rst = false → s.pins.cmdValid = false → s.phase ≠ .diffuse →
    step s = .next { s with inputs := s.inputs.tail })

/-- R118, R107: from an accepted INIT on, what the host can read depends on nothing that was in the block before it. -/
def Obligations.OutputsDependOnlyOnInputsSinceInit : Prop :=
  ∀ (s s' : State) (rest : List PortSample) (k : Nat) (t t' : State),
    StateInv s → StateInv s' → s.phase.listens = true → s'.phase.listens = true →
    s.inputs = .present (encode .init) :: rest → s'.inputs = .present (encode .init) :: rest →
    runSteps (k + 1) s = .next t → runSteps (k + 1) s' = .next t' →
    t.outputs = t'.outputs

/-- R24, R91: nothing observable depends on `DST`: two states that differ in `DST` alone stay so, at every step. -/
def Obligations.NothingObservableDependsOnDst : Prop :=
  ∀ (s : State) (d : Bytes8) (k : Nat) (t t' : State),
    runSteps k s = .next t → runSteps k { s with dst := d } = .next t' →
    { t' with dst := t.dst } = t ∧ t'.outputs = t.outputs

/-! ### Whole messages -/

/-- R70, R79: the fold of one word, and that it acts on each byte position separately. -/
def Obligations.FoldActsPerByte : Prop :=
  (∀ st w : Word64, foldw st w = st ^^^ w) ∧
  (∀ (st w : Word64) (i : Fin 8), byteAt (foldw st w) i = byteAt st i ^^^ byteAt w i) ∧
  (∀ st w : Word64, foldw (foldw st w) w = st) ∧ (∀ st : Word64, foldw st 0#64 = st)

/-- R71: the padded word, byte by byte; not defined for a tail of 0 or of 8 and more bytes. -/
def Obligations.PadwordFillsWithFillBytes : Prop :=
  (∀ t : List Byte, 1 ≤ t.length → t.length ≤ 7 →
    ∃ w : Word64, padword t = some w ∧ ∀ i : Fin 8, byteAt w i = t.getD i.val 0x37#8) ∧
  (∀ t : List Byte, t.length = 0 ∨ 8 ≤ t.length → padword t = none)

/-- R72, R73, R74, R75: when `fold_chunk` is defined, that an unpadded chunk and an empty one fold as they should. -/
def Obligations.FoldChunkContract : Prop :=
  (∀ (st : Word64) (c : List Byte), (foldChunk st c false).isSome ↔ c.length % 8 = 0) ∧
  (∀ (st : Word64) (c : List Byte), (foldChunk st c true).isSome) ∧
  (∀ (st : Word64) (c : List Byte), c.length % 8 = 0 → foldChunk st c true = foldChunk st c false) ∧
  (∀ (st : Word64) (final : Bool), foldChunk st [] final = some st) ∧
  (∀ (st : Word64) (b0 b1 b2 b3 b4 b5 b6 b7 : Byte) (rest : List Byte) (final : Bool),
    foldChunk st (b0 :: b1 :: b2 :: b3 :: b4 :: b5 :: b6 :: b7 :: rest) final =
      foldChunk (st ^^^ be64 b0 b1 b2 b3 b4 b5 b6 b7) rest final) ∧
  (∀ (st : Word64) (t : List Byte), 1 ≤ t.length → t.length ≤ 7 →
    foldChunk st t true = (padword t).map (st ^^^ ·))

/-- R80 (a): chunk-boundary invariance, for every way of splitting at multiples of 8. -/
def Obligations.ChunkBoundariesAreInvisible : Prop :=
  ∀ (st : Word64) (cs : List (List Byte)) (c : List Byte), (∀ x ∈ cs, x.length % 8 = 0) →
    ((cs.foldl (fun o x => o.bind fun v => foldChunk v x false) (some st)).bind fun v => foldChunk v c true) =
      foldChunk st (cs.flatten ++ c) true

/-- R80 (b) to (g): zero words, exact and observable padding, order, cancellation, reachability. -/
def Obligations.FoldProperties : Prop :=
  (∀ k : Nat, foldMsg (List.replicate (8 * k) 0#8) = 0x1c98c677de371c7d#64) ∧
  (∀ (st : Word64) (t : List Byte), 1 ≤ t.length → t.length ≤ 7 →
    foldChunk st t true = foldChunk st (t ++ List.replicate (8 - t.length) 0x37#8) true ∧
    ∃ v z : Word64, foldChunk st t true = some v ∧
      foldChunk st (t ++ List.replicate (8 - t.length) 0#8) true = some z ∧
      ∀ i : Fin 8, t.length ≤ i.val → byteAt v i ≠ byteAt z i) ∧
  (∀ (st : Word64) (ws vs : List Word64), ws.Perm vs → foldWords st ws = foldWords st vs) ∧
  (∀ st w : Word64, foldWords st [w, w] = st) ∧
  (∀ v : Word64, foldMsg (Bytes8.ofWord (v ^^^ 0x1c98c677de371c7d#64)).toList = v)

/-- R81: what the command sequence `MSG M` leaves in the block, and the message's fold as one exclusive-or. -/
def Obligations.MsgSequenceFoldsTheMessage : Prop :=
  (∀ m : List Byte, foldChunk 0x1c98c677de371c7d#64 m true = some (foldMsg m) ∧
    foldMsg m = 0x1c98c677de371c7d#64 ^^^ (splitWords m).1.foldl (· ^^^ ·) 0#64 ^^^ (padword (splitWords m).2).getD 0#64) ∧
  (∀ (m : List Byte) (s : State) (rest : List PortSample), s.phase = .absorb →
    s.inputs = presentAll ((msgCommands m).map encode) ++ rest →
    ∃ (t : State) (v : Word64), runSteps (msgCommands m).length s = .next t ∧ foldChunk s.st m true = some v ∧
      t = { s with st := v, phase := (if m.length % 8 = 0 then .absorb else .closed), inputs := rest })

/-- R114: the command sequence `HASH M` and the 64 DSTEPs after its FIN compute `hash_bytes(M)`, from every phase that listens.
The count of steps is that of the reference binding (R150). -/
def Obligations.HashSequenceComputesHashBytes : Prop :=
  ∀ (m : List Byte) (ws : List CmdWord) (s : State), StateInv s → s.phase.listens = true →
    (AsmLine.hash m).expand = some ws → s.inputs = presentAll ws →
    ∃ t : State, runSteps (referenceCycles m.length) s = .next t ∧ t.phase = .done ∧
      t.dg = (hashBytes m).digest ∧ t.az = (hashBytes m).ambiguous ∧ t.errcode = .none ∧ t.inputs = [] ∧
      (hashBytes m).digest = diffuse (foldMsg m) ∧
      (hashBytes m).ambiguous = (diffuse (foldMsg m) == 0xb4bb4023dcbf444b#64)

/-- R115: the empty message and every message of zero words. -/
def Obligations.ZeroMessagesGiveTheAmbiguousDigest : Prop :=
  hashBytes [] = ⟨0xb4bb4023dcbf444b#64, true⟩ ∧
  ∀ k : Nat, hashBytes (List.replicate (8 * k) 0#8) = ⟨0xb4bb4023dcbf444b#64, true⟩

/-- R109, 90_conflicts.md C3: a flagged message need not be all zero. -/
def Obligations.AmbiguousFlagDoesNotMeanAllZero : Prop :=
  (hashBytes [0x01#8, 0x23#8, 0x45#8, 0x67#8, 0x89#8, 0xab#8, 0xcd#8, 0xef#8,
    0x01#8, 0x23#8, 0x45#8, 0x67#8, 0x89#8, 0xab#8, 0xcd#8, 0xef#8]).ambiguous = true ∧
  (hashBytes [0#8, 0x80#8, 0#8, 0#8, 0#8, 0#8, 0#8, 0#8]).ambiguous = true

/-- R116: where the source's loop is defined, where it agrees with this hardware, and that it does not in general. -/
def Obligations.SourceLoopAgreesOnFullReads : Prop :=
  (∀ (chunk : Nat) (reads : List (List Byte)), chunk % 8 = 0 → (∀ r ∈ reads, 1 ≤ r.length ∧ r.length ≤ chunk) →
    (hasherRef chunk reads).isSome) ∧
  (∀ (chunk : Nat) (reads : List (List Byte)), chunk % 8 = 0 → (∀ r ∈ reads, 1 ≤ r.length ∧ r.length ≤ chunk) →
    (∀ r ∈ reads.dropLast, r.length % 8 = 0) →
    hasherRef chunk reads = some (hashBytes reads.flatten)) ∧
  (∃ (chunk : Nat) (reads : List (List Byte)), chunk % 8 = 0 ∧ (∀ r ∈ reads, 1 ≤ r.length ∧ r.length ≤ chunk) ∧
    hasherRef chunk reads ≠ some (hashBytes reads.flatten))

/-- R15, R117: the textual form has 16 characters and tells digests apart; the audited vector's text. -/
def Obligations.HexFormIsFaithful : Prop :=
  (∀ v : Word64, (hexstr v).length = 16) ∧
  (∀ v w : Word64, hexstr v = hexstr w → v = w) ∧
  hexstr 0xb4bb4023dcbf444b#64 = ['b', '4', 'b', 'b', '4', '0', '2', '3', 'd', 'c', 'b', 'f', '4', '4', '4', 'b']

/-- R65: the words each pseudo-instruction emits. `MSG` is one FOLDW for each full word, its data the word big-endian, and one
FOLDP for the tail, its count the tail's length and its data the tail completed by zeros; it never emits `FOLDP 0`. `HASH` is
`INIT`, `MSG`, `FIN`; `CHUNK` emits the same as `MSG` and is refused for a length that is no multiple of 8. -/
def Obligations.PseudoInstructionsExpand : Prop :=
  (∀ (m : List Byte) (k : Nat), k < m.length / 8 →
    ∃ d : Word64, (msgCommands m)[k]? = some (.foldw d) ∧ ∀ i : Fin 8, byteAt d i = m.getD (8 * k + i.val) 0#8) ∧
  (∀ m : List Byte, m.length % 8 ≠ 0 →
    ∃ (n : BitVec 3) (d : Word64), (msgCommands m)[m.length / 8]? = some (.foldp n d) ∧ n.toNat = m.length % 8 ∧
      ∀ i : Fin 8, byteAt d i = m.getD (8 * (m.length / 8) + i.val) 0#8) ∧
  (∀ (m : List Byte) (n : BitVec 3) (d : Word64), .foldp n d ∈ msgCommands m →
    n ≠ 0#3 ∧ n.toNat = m.length % 8 ∧ ignoredBytesZero n d = true) ∧
  (∀ m : List Byte, (msgCommands m).length = (m.length + 7) / 8) ∧
  (∀ m : List Byte, (AsmLine.msg m).expand = some ((msgCommands m).map encode)) ∧
  (∀ m : List Byte, (AsmLine.hash m).expand = some (encode .init :: ((msgCommands m).map encode ++ [encode .fin]))) ∧
  (∀ m : List Byte, (AsmLine.chunk m).expand =
    if m.length % 8 = 0 then some ((msgCommands m).map encode) else none) ∧
  (∀ m : List Byte, (AsmLine.chunkf m).expand = (AsmLine.msg m).expand) ∧
  AsmLine.close.expand = some [0x300000000000000000#72]

/-! ### Runs -/

/-- R149: a run starts at an accepted INIT and ends in exactly one of three ways: completed by the 64th DSTEP, with the pair
(`DG`, `AZ`) as its result; abandoned by an INIT or a Reset; faulted by a protocol error in it, after which nothing happens
until Reset. Nothing else starts or ends one: a protocol error in IDLE or DONE ends none, and a host that sends nothing does
not. Over any number of steps, the runs that ended and the one in progress are those that started and the one that was in
progress. -/
def Obligations.RunsEndInExactlyOneWay : Prop :=
  (∀ s t : State, step s = .next t → s.inRun = false →
    s.runEnd = none ∧ (t.inRun = true ↔ s.performs .init)) ∧
  (∀ s t : State, step s = .next t → s.inRun = true →
    (∀ (d : Word64) (a : Bool), s.runEnd = some (.completed d a) ↔
      s.diffuses ∧ s.stepsDone = 63 ∧ d = t.dg ∧ a = t.az) ∧
    (s.runEnd = some .abandoned ↔ s.pins.rst = true ∨ s.performs .init) ∧
    (∀ c : ErrCode, s.runEnd = some (.faulted c) ↔ s.errs ∧ c = t.errcode) ∧
    (s.runEnd = none ↔ t.inRun = true ∧ ¬ s.performs .init)) ∧
  (∀ (s t : State) (d : Word64) (a : Bool), step s = .next t → s.runEnd = some (.completed d a) →
    t.phase = .done ∧ t.outputs.digest = some d ∧ t.outputs.ambiguous = a ∧
      (RunEnd.completed d a).result = some (d, a)) ∧
  (∀ (s t : State) (c : ErrCode), step s = .next t → s.runEnd = some (.faulted c) →
    t.phase = .fault ∧ c ≠ .none ∧ (RunEnd.faulted c).result = none ∧
      (t.noResetAhead = true → ∀ k : Nat, runSteps k t = .next { t with inputs := t.inputs.drop k })) ∧
  RunEnd.abandoned.result = none ∧
  (∀ s t : State, s.phase = .absorb ∨ s.phase = .closed → s.pins.rst = false → s.pins.cmdValid = false →
    step s = .next t → s.runEnd = none ∧ t.phase = s.phase) ∧
  (∀ (k : Nat) (s t : State), runSteps k s = .next t →
    (runEnds k s).length + t.inRun.toNat = runStarts k s + s.inRun.toNat)
end

