-- ==== Sys2Proof/Laws/Bytes.lean ====
section
/-! SUPPORT. Laws of the byte order: `byte` and `be64` are inverse, and exclusive-or acts per byte (00_scope.md R12; 40_fold.md R70). -/

namespace Sys2Proof

/-- Bit `j` of a big-endian value is a bit of the byte that holds it. -/
theorem getLsbD_be64 (b0 b1 b2 b3 b4 b5 b6 b7 : Byte) (j : Nat) :
    (be64 b0 b1 b2 b3 b4 b5 b6 b7).getLsbD j =
      if j < 8 then b7.getLsbD j else if j < 16 then b6.getLsbD (j - 8)
      else if j < 24 then b5.getLsbD (j - 16) else if j < 32 then b4.getLsbD (j - 24)
      else if j < 40 then b3.getLsbD (j - 32) else if j < 48 then b2.getLsbD (j - 40)
      else if j < 56 then b1.getLsbD (j - 48) else b0.getLsbD (j - 56) := by
  show BitVec.getLsbD (w := 8 + 8 + 8 + 8 + 8 + 8 + 8 + 8)
    (b0 ++ b1 ++ b2 ++ b3 ++ b4 ++ b5 ++ b6 ++ b7) j = _
  rw [BitVec.getLsbD_append, BitVec.getLsbD_append, BitVec.getLsbD_append, BitVec.getLsbD_append,
    BitVec.getLsbD_append, BitVec.getLsbD_append, BitVec.getLsbD_append]
  simp only [Nat.sub_sub]
  grind

/-- Bit `j` of byte `i` is bit `56 - 8i + j` of the value. -/
theorem getLsbD_byteAt (v : Word64) (i : Fin 8) (j : Nat) :
    (byteAt v i).getLsbD j = (decide (j < 8) && v.getLsbD (56 - 8 * i.val + j)) := by
  simp [byteAt, BitVec.getLsbD_extractLsb']

@[simp] theorem Bytes8.get_ofFn (f : Fin 8 → Byte) (i : Fin 8) : (Bytes8.ofFn f).get i = f i := by
  fin_cases i <;> rfl

/-- Two buffers with the same bytes are the same. -/
theorem Bytes8.ext_get {a b : Bytes8} (h : ∀ i, a.get i = b.get i) : a = b := by
  cases a; cases b
  simp only [Bytes8.mk.injEq]
  exact ⟨h 0, h 1, h 2, h 3, h 4, h 5, h 6, h 7⟩

@[simp] theorem byteAt_toWord (b : Bytes8) (i : Fin 8) : byteAt b.toWord i = b.get i := by
  apply BitVec.eq_of_getLsbD_eq
  intro j hj
  rw [getLsbD_byteAt, Bytes8.toWord, getLsbD_be64]
  fin_cases i <;> simp [hj, Bytes8.get] <;> grind

@[simp] theorem byteAt_be64 (b0 b1 b2 b3 b4 b5 b6 b7 : Byte) (i : Fin 8) :
    byteAt (be64 b0 b1 b2 b3 b4 b5 b6 b7) i = (Bytes8.mk b0 b1 b2 b3 b4 b5 b6 b7).get i :=
  byteAt_toWord ⟨b0, b1, b2, b3, b4, b5, b6, b7⟩ i

@[simp] theorem Bytes8.get_ofWord (v : Word64) (i : Fin 8) : (Bytes8.ofWord v).get i = byteAt v i := by
  simp [Bytes8.ofWord]

@[simp] theorem Bytes8.ofWord_toWord (b : Bytes8) : Bytes8.ofWord b.toWord = b :=
  Bytes8.ext_get fun i => by simp

@[simp] theorem Bytes8.toWord_ofWord (v : Word64) : (Bytes8.ofWord v).toWord = v := by
  apply BitVec.eq_of_getLsbD_eq
  intro j hj
  simp only [Bytes8.toWord, Bytes8.ofWord, Bytes8.ofFn, getLsbD_be64, getLsbD_byteAt]
  split_ifs <;> simp <;> grind

/-- Two 64-bit values with the same bytes are the same. -/
theorem eq_of_byteAt {v w : Word64} (h : ∀ i, byteAt v i = byteAt w i) : v = w := by
  rw [← Bytes8.toWord_ofWord v, ← Bytes8.toWord_ofWord w]
  exact congrArg Bytes8.toWord (Bytes8.ext_get fun i => by simp [h i])

theorem byteAt_xor (v w : Word64) (i : Fin 8) : byteAt (v ^^^ w) i = byteAt v i ^^^ byteAt w i := by
  apply BitVec.eq_of_getLsbD_eq
  intro j hj
  simp only [BitVec.getLsbD_xor, getLsbD_byteAt, hj, decide_true, Bool.true_and]

/-- Byte `i` of the word FOLDP folds (40_fold.md R77). -/
theorem byteAt_paddedTail (n : BitVec 3) (data : Word64) (i : Fin 8) :
    byteAt (paddedTail n data) i = if i.val < n.toNat then byteAt data i else Config.fillByte := by
  simp [paddedTail]

/-- The bytes of the data from `n` on never reach the word FOLDP folds (30_encoding.md R59). -/
theorem paddedTail_ignores (n : BitVec 3) {data data' : Word64}
    (h : ∀ i : Fin 8, i.val < n.toNat → byteAt data i = byteAt data' i) :
    paddedTail n data = paddedTail n data' := by
  apply eq_of_byteAt
  intro i
  simp only [byteAt_paddedTail]
  split
  · exact h i ‹_›
  · rfl

/-- `foldw` twice with one word changes nothing (40_fold.md R79). -/
@[simp] theorem foldw_foldw (st w : Word64) : foldw (foldw st w) w = st := by
  simp [foldw]

end Sys2Proof
end

