-- ==== Sys2Proof/Laws/Decode.lean ====
section
/-! SUPPORT. Laws of the decoder: the fields of a word built from a control byte and data, and the cases of `decode` (30_encoding.md R63). -/

namespace Sys2Proof

@[simp] theorem controlByte_append (c : Byte) (d : Word64) : controlByte (c ++ d) = c := by
  apply BitVec.eq_of_getLsbD_eq
  intro j hj
  simp only [controlByte, BitVec.getLsbD_extractLsb', hj]
  rw [BitVec.getLsbD_append]
  simp

@[simp] theorem dataField_append (c : Byte) (d : Word64) : dataField (c ++ d) = d := by
  apply BitVec.eq_of_getLsbD_eq
  intro j hj
  simp only [dataField, BitVec.getLsbD_extractLsb', hj]
  rw [BitVec.getLsbD_append]
  simp [hj]

/-- A word is its control byte and its data. -/
theorem append_fields (cw : CmdWord) : controlByte cw ++ dataField cw = cw := by
  apply BitVec.eq_of_getLsbD_eq
  intro j hj
  rw [BitVec.getLsbD_append]
  simp only [controlByte, dataField, BitVec.getLsbD_extractLsb']
  split <;> simp <;> grind

/-- A word as the spec's encoding formulas write it: control byte shifted, data or-ed in (30_encoding.md R66). -/
theorem append_eq_shift_or (c : Byte) (d : Word64) :
    (c ++ d : CmdWord) = (c.setWidth 72 <<< 64) ||| d.setWidth 72 := by
  apply BitVec.eq_of_toNat_eq
  have hc := c.isLt
  have hd := d.isLt
  have h1 : c.toNat % 2 ^ 72 = c.toNat := Nat.mod_eq_of_lt (by omega)
  have h2 : d.toNat % 2 ^ 72 = d.toNat := Nat.mod_eq_of_lt (by omega)
  have h3 : c.toNat <<< 64 % 2 ^ 72 = c.toNat <<< 64 := by
    rw [Nat.shiftLeft_eq]
    exact Nat.mod_eq_of_lt (by omega)
  rw [BitVec.toNat_append, BitVec.toNat_or, BitVec.toNat_shiftLeft, BitVec.toNat_setWidth, BitVec.toNat_setWidth,
    h1, h2, h3]

/-- What the control byte and the data decode to. -/
def decodeParts (cb : Byte) (d : Word64) : Decoded :=
  if cb = 0x10#8 then .command .init
  else if cb = 0x20#8 then .command (.foldw d)
  else if cb.extractLsb' 3 5 = 0b00110#5 then .command (.foldp (cb.extractLsb' 0 3) d)
  else if cb = 0x40#8 then .command .fin
  else .illegal

/-- `decode` reads the control byte and the data and nothing else. -/
theorem decode_append (cb : Byte) (d : Word64) : decode (cb ++ d) = decodeParts cb d := by
  simp only [decode, decodeParts, controlByte_append, dataField_append]

/-- Each verdict of the decoder, with the words that get it. -/
theorem decode_cases (cw : CmdWord) :
    (controlByte cw = 0x10#8 ∧ decode cw = .command .init) ∨
    (controlByte cw = 0x20#8 ∧ decode cw = .command (.foldw (dataField cw))) ∨
    (∃ n : BitVec 3, controlByte cw = 0x30#8 ||| n.setWidth 8 ∧ decode cw = .command (.foldp n (dataField cw))) ∨
    (controlByte cw = 0x40#8 ∧ decode cw = .command .fin) ∨
    decode cw = .illegal := by
  simp only [decode]
  generalize controlByte cw = cb
  split_ifs with h1 h2 h3 h4
  · simp [h1]
  · simp [h2]
  · refine .inr (.inr (.inl ⟨cb.extractLsb' 0 3, ?_, rfl⟩))
    clear h1 h2
    revert cb
    decide
  · simp [h4]
  · simp

end Sys2Proof
end

