-- ==== Sys2Proof/Laws/Diffuser.lean ====
section
/-! SUPPORT. Laws of the Diffuser: the buffer after a mirror addition reads the same both ways (41_diffuse.md R96), and the loop form of R93 counted from its last step. -/

namespace Sys2Proof.Machine

/-- A mirror addition leaves a buffer that reads the same both ways, addition being commutative. -/
theorem mirrorAdd_palindrome (d : Bytes8) (k : Fin 8) : (mirrorAdd d).get k = (mirrorAdd d).get (7 - k) := by
  fin_cases k <;> exact BitVec.add_comm _ _

/-- The feedback of a buffer that reads the same both ways is 0. -/
theorem feedback_mirrorAdd (d : Bytes8) : feedback (mirrorAdd d) = 0#8 := by
  have h : ∀ a b c e : Byte, a ^^^ b ^^^ c ^^^ e ^^^ e ^^^ c ^^^ b ^^^ a = 0#8 := by
    intro a b c e
    rw [BitVec.xor_assoc (a ^^^ b ^^^ c) e e, BitVec.xor_self, BitVec.xor_zero, BitVec.xor_assoc (a ^^^ b) c c,
      BitVec.xor_self, BitVec.xor_zero, BitVec.xor_assoc a b b, BitVec.xor_self, BitVec.xor_zero, BitVec.xor_self]
  simp only [feedback, mirrorAdd, add8]
  rw [BitVec.add_comm d.b4 d.b3, BitVec.add_comm d.b5 d.b2, BitVec.add_comm d.b6 d.b1, BitVec.add_comm d.b7 d.b0]
  exact h _ _ _ _

/-- The mask complements four bytes, so the feedback does not see it. -/
theorem feedback_maskSrc (d : Bytes8) : feedback (maskSrc d) = feedback d := by
  simp only [feedback, maskSrc, not8]
  apply BitVec.eq_of_getLsbD_eq
  intro j _
  simp only [BitVec.getLsbD_xor]
  generalize BitVec.getLsbD 255#8 j = x
  cases x <;> simp

/-- `k + 1` inner steps, the last one last. -/
theorem Buffers.inners_succ (k : Nat) (b : Buffers) : Buffers.inners (k + 1) b = (Buffers.inners k b).inner := by
  induction k generalizing b with
  | zero => rfl
  | succ k ih => exact ih b.inner

/-- `k + 1` outer rounds, the last one last. -/
theorem Buffers.rounds_succ (k : Nat) (b : Buffers) : Buffers.rounds (k + 1) b = (Buffers.rounds k b).round := by
  induction k generalizing b with
  | zero => rfl
  | succ k ih => exact ih b.round

/-- `j ≤ 7` DSTEPs from the start of a round are `j` inner steps. -/
theorem dstep_inner_passes (j : Nat) (hj : j ≤ 7) (s : State) (hi : s.ic = 0#3) :
    dstep^[j] s = { s with
      src := (Buffers.inners j ⟨s.src, s.dst⟩).src
      dst := (Buffers.inners j ⟨s.src, s.dst⟩).dst
      ic := BitVec.ofNat 3 j } := by
  induction j with
  | zero => cases s; simp at hi; simp [hi, Buffers.inners]
  | succ j ih =>
    have hne : BitVec.ofNat 3 j ≠ 7#3 := by
      intro h
      have := congrArg BitVec.toNat h
      simp at this
      omega
    rw [Function.iterate_succ_apply', ih (by omega)]
    unfold dstep
    rw [if_pos (by exact hne), Buffers.inners_succ]
    simp only [innerPass, Buffers.inner]
    rw [BitVec.ofNat_add]

/-- The eight DSTEPs of a round that is not the last are one outer round. -/
theorem dstep_round (s : State) (hi : s.ic = 0#3) (ho : s.oc ≠ 7#4) :
    dstep^[8] s = { s with
      src := (Buffers.round ⟨s.src, s.dst⟩).src
      dst := (Buffers.round ⟨s.src, s.dst⟩).dst
      ic := 0#3
      oc := s.oc + 1#4 } := by
  have hoc : s.oc + 1#4 = 8#4 ↔ s.oc = 7#4 := by
    generalize s.oc = x; revert x; decide
  rw [Function.iterate_succ_apply', dstep_inner_passes 7 (by omega) s hi]
  unfold dstep
  rw [if_neg (by simp), if_neg (by exact fun h => ho (hoc.mp h))]
  simp only [lastPass, Buffers.round, Config.innerRounds]
  rw [Buffers.inners_succ]
  rfl

/-- The eight DSTEPs of the last round are one outer round, and the digest is complete. -/
theorem dstep_last_round (s : State) (hi : s.ic = 0#3) (ho : s.oc = 7#4) :
    dstep^[8] s = complete { s with
      src := (Buffers.round ⟨s.src, s.dst⟩).src
      dst := (Buffers.round ⟨s.src, s.dst⟩).dst
      ic := 0#3
      oc := 8#4 } := by
  rw [Function.iterate_succ_apply', dstep_inner_passes 7 (by omega) s hi]
  unfold dstep
  rw [if_neg (by simp), if_pos (by simp [ho])]
  simp only [lastPass, Buffers.round, Config.innerRounds]
  rw [Buffers.inners_succ]
  simp [ho]
  rfl

end Sys2Proof.Machine
end

