-- ==== Sys2Proof/Laws/PerInstr.lean ====
section
/-! SUPPORT. The laws stated once per command: its fields are well formed, and its word has them and selects its own row of the opcode map, and no other (30_encoding.md R56 to R58, R66). -/

namespace Sys2Proof.Laws.RowSelect

/-- The fields of a command select a row; its control byte is made of `op`, `z` and `n`; of the rows of the opcode map its
word selects the one with its mnemonic. -/
def Statement (i : Instr) : Prop :=
  i.wellFormed = true ∧ i.control = i.fields.op ++ i.fields.z ++ i.fields.n ∧ i.payload = i.fields.data ∧
    ∀ r ∈ opcodeMap, r.selects (encode i) = (r.mnemonic == i.mnemonic)

/-- A word of data does not reach a mask that covers the control byte only. -/
theorem masked (c m : Byte) (d : Word64) :
    (c ++ d : CmdWord) &&& (m ++ (0#64 : Word64)) = (c &&& m) ++ (0#64 : Word64) := by
  apply BitVec.eq_of_getLsbD_eq
  intro j hj
  rw [BitVec.getLsbD_and, BitVec.getLsbD_append, BitVec.getLsbD_append, BitVec.getLsbD_append]
  split <;> simp

/-- Whether a row selects a word is decided by the control byte. -/
theorem selects_append (name : String) (p m c : Byte) (d : Word64) :
    (OpcodeRow.mk name (p ++ (0#64 : Word64)) (m ++ (0#64 : Word64))).selects (c ++ d) = ((c &&& m) == p) := by
  unfold OpcodeRow.selects
  rw [masked]
  by_cases h : c &&& m = p
  · simp [h]
  · have hne : (c &&& m) ++ (0#64 : Word64) ≠ p ++ (0#64 : Word64) := by
      intro e
      exact h (by rw [← controlByte_append (c &&& m) 0#64, e, controlByte_append])
    rw [beq_eq_false_iff_ne.mpr h]
    exact beq_eq_false_iff_ne.mpr hne

/-- The rows, each mask and pattern a control byte followed by zeros. -/
theorem opcodeMap_eq : opcodeMap =
    [⟨"INIT", 0x10#8 ++ (0#64 : Word64), 0xff#8 ++ (0#64 : Word64)⟩,
      ⟨"FOLDW", 0x20#8 ++ (0#64 : Word64), 0xff#8 ++ (0#64 : Word64)⟩,
      ⟨"FOLDP", 0x30#8 ++ (0#64 : Word64), 0xf8#8 ++ (0#64 : Word64)⟩,
      ⟨"FIN", 0x40#8 ++ (0#64 : Word64), 0xff#8 ++ (0#64 : Word64)⟩] := by decide

/-- The selection of every row, from the control byte of the command. -/
theorem rows_of_control {i : Instr}
    (h : (((i.control &&& 0xff#8) == 0x10#8) = ("INIT" == i.mnemonic)) ∧
      (((i.control &&& 0xff#8) == 0x20#8) = ("FOLDW" == i.mnemonic)) ∧
      (((i.control &&& 0xf8#8) == 0x30#8) = ("FOLDP" == i.mnemonic)) ∧
      (((i.control &&& 0xff#8) == 0x40#8) = ("FIN" == i.mnemonic))) :
    ∀ r ∈ opcodeMap, r.selects (encode i) = (r.mnemonic == i.mnemonic) := by
  intro r hr
  rw [opcodeMap_eq] at hr
  simp only [List.mem_cons, List.not_mem_nil, or_false] at hr
  obtain ⟨h1, h2, h3, h4⟩ := h
  rcases hr with rfl | rfl | rfl | rfl <;> rw [encode, selects_append] <;> assumption

theorem init : Statement .init :=
  ⟨by decide, by decide, rfl, rows_of_control (by decide)⟩

theorem foldw (data : Word64) : Statement (.foldw data) :=
  ⟨rfl, by simp only [Instr.control, Instr.fields]; decide, rfl, rows_of_control (by
    simp only [Instr.control, Instr.mnemonic]; decide)⟩

theorem foldp (n : BitVec 3) (data : Word64) : Statement (.foldp n data) := by
  refine ⟨rfl, ?_, rfl, rows_of_control ?_⟩
  · simp only [Instr.control, Instr.fields]
    revert n
    decide
  · simp only [Instr.control, Instr.mnemonic]
    revert n
    decide

theorem fin : Statement .fin :=
  ⟨by decide, by decide, rfl, rows_of_control (by decide)⟩

end Sys2Proof.Laws.RowSelect
end

