-- ==== Sys2Proof/Laws/Reference.lean ====
section
/-! SUPPORT. Laws of cutting a message into words: an induction that takes eight bytes at a time, the lengths of the parts, and the words of two messages one after the other (20_memory.md R41, R42). -/

namespace Sys2Proof.Machine

theorem splitWords_cons8 (b0 b1 b2 b3 b4 b5 b6 b7 : Byte) (rest : List Byte) :
    splitWords (b0 :: b1 :: b2 :: b3 :: b4 :: b5 :: b6 :: b7 :: rest) =
      (be64 b0 b1 b2 b3 b4 b5 b6 b7 :: (splitWords rest).1, (splitWords rest).2) := rfl

theorem splitWords_short (c : List Byte) (h : c.length < 8) : splitWords c = ([], c) := by
  unfold splitWords
  split
  · simp at h; omega
  · rfl

/-- Induction on a byte sequence, a word at a time. -/
theorem word_induction {P : List Byte → Prop} (short : ∀ c, c.length < 8 → P c)
    (word : ∀ b0 b1 b2 b3 b4 b5 b6 b7 rest, P rest → P (b0 :: b1 :: b2 :: b3 :: b4 :: b5 :: b6 :: b7 :: rest)) :
    ∀ c : List Byte, P c
  | [] => short _ (by decide)
  | [_] => short _ (by simp)
  | [_, _] => short _ (by simp)
  | [_, _, _] => short _ (by simp)
  | [_, _, _, _] => short _ (by simp)
  | [_, _, _, _, _] => short _ (by simp)
  | [_, _, _, _, _, _] => short _ (by simp)
  | [_, _, _, _, _, _, _] => short _ (by simp)
  | b0 :: b1 :: b2 :: b3 :: b4 :: b5 :: b6 :: b7 :: rest =>
    word b0 b1 b2 b3 b4 b5 b6 b7 rest (word_induction short word rest)

/-- The bytes left over. -/
theorem length_splitWords_snd (c : List Byte) : (splitWords c).2.length = c.length % 8 := by
  induction c using word_induction with
  | short c h => rw [splitWords_short c h]; exact (Nat.mod_eq_of_lt h).symm
  | word b0 b1 b2 b3 b4 b5 b6 b7 rest ih => rw [splitWords_cons8]; simp only [ih, List.length_cons]; omega

/-- The full words. -/
theorem length_splitWords_fst (c : List Byte) : (splitWords c).1.length = c.length / 8 := by
  induction c using word_induction with
  | short c h => rw [splitWords_short c h]; simp; omega
  | word b0 b1 b2 b3 b4 b5 b6 b7 rest ih => rw [splitWords_cons8]; simp only [ih, List.length_cons]; omega

/-- A first part of whole words does not move the words of the second. -/
theorem splitWords_append (a b : List Byte) (h : a.length % 8 = 0) :
    splitWords (a ++ b) = ((splitWords a).1 ++ (splitWords b).1, (splitWords b).2) := by
  induction a using word_induction with
  | short c h8 =>
    have : c = [] := List.eq_nil_of_length_eq_zero (by omega)
    subst this
    simp [splitWords_short]
  | word b0 b1 b2 b3 b4 b5 b6 b7 rest ih =>
    simp only [List.cons_append, splitWords_cons8, ih (by simp at h; omega)]

end Sys2Proof.Machine
end

