-- ==== Sys2Proof/Laws/State.lean ====
section
/-! SUPPORT. One lemma per field per update of State, each true by rfl. -/

namespace Sys2Proof.Machine

/-! `protocolError` writes ERRCODE and PHASE only (60_exceptions.md R128). -/

@[simp] theorem protocolError_st (code : ErrCode) (s : State) : (protocolError code s).st = s.st := rfl
@[simp] theorem protocolError_src (code : ErrCode) (s : State) : (protocolError code s).src = s.src := rfl
@[simp] theorem protocolError_dst (code : ErrCode) (s : State) : (protocolError code s).dst = s.dst := rfl
@[simp] theorem protocolError_dg (code : ErrCode) (s : State) : (protocolError code s).dg = s.dg := rfl
@[simp] theorem protocolError_az (code : ErrCode) (s : State) : (protocolError code s).az = s.az := rfl
@[simp] theorem protocolError_phase (code : ErrCode) (s : State) : (protocolError code s).phase = .fault := rfl
@[simp] theorem protocolError_oc (code : ErrCode) (s : State) : (protocolError code s).oc = s.oc := rfl
@[simp] theorem protocolError_ic (code : ErrCode) (s : State) : (protocolError code s).ic = s.ic := rfl
@[simp] theorem protocolError_errcode (code : ErrCode) (s : State) : (protocolError code s).errcode = code := rfl
@[simp] theorem protocolError_inputs (code : ErrCode) (s : State) : (protocolError code s).inputs = s.inputs := rfl
@[simp] theorem protocolError_freeIndex (code : ErrCode) (s : State) : (protocolError code s).freeIndex = s.freeIndex := rfl

/-! `applyReset` writes every register and leaves the host's samples (70_reset_and_hazards.md R145). -/

@[simp] theorem applyReset_st (s : State) : (applyReset s).st = Config.freeST s.freeIndex := rfl
@[simp] theorem applyReset_src (s : State) : (applyReset s).src = Config.freeSRC s.freeIndex := rfl
@[simp] theorem applyReset_dst (s : State) : (applyReset s).dst = Config.freeDST s.freeIndex := rfl
@[simp] theorem applyReset_dg (s : State) : (applyReset s).dg = Config.freeDG s.freeIndex := rfl
@[simp] theorem applyReset_az (s : State) : (applyReset s).az = false := rfl
@[simp] theorem applyReset_phase (s : State) : (applyReset s).phase = .idle := rfl
@[simp] theorem applyReset_oc (s : State) : (applyReset s).oc = 0#4 := rfl
@[simp] theorem applyReset_ic (s : State) : (applyReset s).ic = 0#3 := rfl
@[simp] theorem applyReset_errcode (s : State) : (applyReset s).errcode = .none := rfl
@[simp] theorem applyReset_inputs (s : State) : (applyReset s).inputs = s.inputs := rfl
@[simp] theorem applyReset_freeIndex (s : State) : (applyReset s).freeIndex = s.freeIndex + 1 := rfl

/-! `advanceInputs` touches no register. -/

@[simp] theorem State.advanceInputs_st (s : State) : s.advanceInputs.st = s.st := rfl
@[simp] theorem State.advanceInputs_src (s : State) : s.advanceInputs.src = s.src := rfl
@[simp] theorem State.advanceInputs_dst (s : State) : s.advanceInputs.dst = s.dst := rfl
@[simp] theorem State.advanceInputs_dg (s : State) : s.advanceInputs.dg = s.dg := rfl
@[simp] theorem State.advanceInputs_az (s : State) : s.advanceInputs.az = s.az := rfl
@[simp] theorem State.advanceInputs_phase (s : State) : s.advanceInputs.phase = s.phase := rfl
@[simp] theorem State.advanceInputs_oc (s : State) : s.advanceInputs.oc = s.oc := rfl
@[simp] theorem State.advanceInputs_ic (s : State) : s.advanceInputs.ic = s.ic := rfl
@[simp] theorem State.advanceInputs_errcode (s : State) : s.advanceInputs.errcode = s.errcode := rfl
@[simp] theorem State.advanceInputs_inputs (s : State) : s.advanceInputs.inputs = if s.wordWaits then s.inputs else s.inputs.tail := rfl
@[simp] theorem State.advanceInputs_freeIndex (s : State) : s.advanceInputs.freeIndex = s.freeIndex := rfl

/-! `offer` touches no register. -/

@[simp] theorem State.offer_st (cw : CmdWord) (s : State) : (s.offer cw).st = s.st := rfl
@[simp] theorem State.offer_src (cw : CmdWord) (s : State) : (s.offer cw).src = s.src := rfl
@[simp] theorem State.offer_dst (cw : CmdWord) (s : State) : (s.offer cw).dst = s.dst := rfl
@[simp] theorem State.offer_dg (cw : CmdWord) (s : State) : (s.offer cw).dg = s.dg := rfl
@[simp] theorem State.offer_az (cw : CmdWord) (s : State) : (s.offer cw).az = s.az := rfl
@[simp] theorem State.offer_phase (cw : CmdWord) (s : State) : (s.offer cw).phase = s.phase := rfl
@[simp] theorem State.offer_oc (cw : CmdWord) (s : State) : (s.offer cw).oc = s.oc := rfl
@[simp] theorem State.offer_ic (cw : CmdWord) (s : State) : (s.offer cw).ic = s.ic := rfl
@[simp] theorem State.offer_errcode (cw : CmdWord) (s : State) : (s.offer cw).errcode = s.errcode := rfl
@[simp] theorem State.offer_inputs (cw : CmdWord) (s : State) : (s.offer cw).inputs = .present cw :: s.inputs := rfl
@[simp] theorem State.offer_freeIndex (cw : CmdWord) (s : State) : (s.offer cw).freeIndex = s.freeIndex := rfl

/-! `innerPass` writes SRC, DST and IC (41_diffuse.md R92). -/

@[simp] theorem innerPass_st (s : State) : (innerPass s).st = s.st := rfl
@[simp] theorem innerPass_src (s : State) : (innerPass s).src = mirrorAdd (shiftIn s.src) := rfl
@[simp] theorem innerPass_dst (s : State) : (innerPass s).dst = shiftIn s.src := rfl
@[simp] theorem innerPass_dg (s : State) : (innerPass s).dg = s.dg := rfl
@[simp] theorem innerPass_az (s : State) : (innerPass s).az = s.az := rfl
@[simp] theorem innerPass_phase (s : State) : (innerPass s).phase = s.phase := rfl
@[simp] theorem innerPass_oc (s : State) : (innerPass s).oc = s.oc := rfl
@[simp] theorem innerPass_ic (s : State) : (innerPass s).ic = s.ic + 1#3 := rfl
@[simp] theorem innerPass_errcode (s : State) : (innerPass s).errcode = s.errcode := rfl
@[simp] theorem innerPass_inputs (s : State) : (innerPass s).inputs = s.inputs := rfl
@[simp] theorem innerPass_freeIndex (s : State) : (innerPass s).freeIndex = s.freeIndex := rfl

/-! `lastPass` writes SRC, DST, IC and OC (41_diffuse.md R92). -/

@[simp] theorem lastPass_st (s : State) : (lastPass s).st = s.st := rfl
@[simp] theorem lastPass_src (s : State) : (lastPass s).src = maskSrc (mirrorAdd (shiftIn s.src)) := rfl
@[simp] theorem lastPass_dst (s : State) : (lastPass s).dst = maskDst (shiftIn s.src) := rfl
@[simp] theorem lastPass_dg (s : State) : (lastPass s).dg = s.dg := rfl
@[simp] theorem lastPass_az (s : State) : (lastPass s).az = s.az := rfl
@[simp] theorem lastPass_phase (s : State) : (lastPass s).phase = s.phase := rfl
@[simp] theorem lastPass_oc (s : State) : (lastPass s).oc = s.oc + 1#4 := rfl
@[simp] theorem lastPass_ic (s : State) : (lastPass s).ic = 0#3 := rfl
@[simp] theorem lastPass_errcode (s : State) : (lastPass s).errcode = s.errcode := rfl
@[simp] theorem lastPass_inputs (s : State) : (lastPass s).inputs = s.inputs := rfl
@[simp] theorem lastPass_freeIndex (s : State) : (lastPass s).freeIndex = s.freeIndex := rfl

/-! `complete` writes DG, AZ and PHASE (41_diffuse.md R92). -/

@[simp] theorem complete_st (s : State) : (complete s).st = s.st := rfl
@[simp] theorem complete_src (s : State) : (complete s).src = s.src := rfl
@[simp] theorem complete_dst (s : State) : (complete s).dst = s.dst := rfl
@[simp] theorem complete_dg (s : State) : (complete s).dg = s.src.toWord := rfl
@[simp] theorem complete_az (s : State) : (complete s).az = ambiguousFlag s.src.toWord := rfl
@[simp] theorem complete_phase (s : State) : (complete s).phase = .done := rfl
@[simp] theorem complete_oc (s : State) : (complete s).oc = s.oc := rfl
@[simp] theorem complete_ic (s : State) : (complete s).ic = s.ic := rfl
@[simp] theorem complete_errcode (s : State) : (complete s).errcode = s.errcode := rfl
@[simp] theorem complete_inputs (s : State) : (complete s).inputs = s.inputs := rfl
@[simp] theorem complete_freeIndex (s : State) : (complete s).freeIndex = s.freeIndex := rfl

end Sys2Proof.Machine
end

