-- ==== Sys2Proof/Laws/Step.lean ====
section
/-! SUPPORT. Laws of the commands and of the step: the next state of each as a total function, and the cases of a step. -/

namespace Sys2Proof.Machine

/-! ### When a command is heard -/

theorem whenHeard_of_listens {s : State} (t : State) (h : s.phase.listens = true) : whenHeard s t = .next t := by
  simp [whenHeard, h]

theorem whenHeard_of_deaf {s : State} (t : State) (h : s.phase.listens = false) : whenHeard s t = .next s := by
  simp [whenHeard, h]

theorem listens_iff (p : Phase) : p.listens = true ↔ p ≠ .diffuse ∧ p ≠ .fault := by
  cases p <;> simp [Phase.listens]

/-! ### The commands -/

/-- The state a command leaves in a phase that listens. -/
def effect (i : Instr) (s : State) : State :=
  match i with
  | .init => { s with st := Config.initialState, az := false, phase := .absorb }
  | .foldw data =>
    if s.phase = .absorb then { s with st := foldw s.st data } else protocolError .seqFold s
  | .foldp n data =>
    if s.phase = .absorb then
      { s with st := if n = 0#3 then s.st else foldw s.st (paddedTail n data), phase := .closed }
    else protocolError .seqFold s
  | .fin =>
    if s.phase = .absorb ∨ s.phase = .closed then
      { s with src := .ofWord s.st, oc := 0#4, ic := 0#3, phase := .diffuse }
    else protocolError .seqFin s

/-- Every command goes to a next state: its effect where it is heard, no change where it is not. -/
theorem exec_eq (i : Instr) (s : State) : exec i s = whenHeard s (effect i s) := by
  cases i <;> rfl

/-- No command reads or writes the host's samples or the count of free values. -/
theorem effect_inputs (i : Instr) (s : State) : (effect i s).inputs = s.inputs := by
  cases i <;> simp only [effect] <;> (try split) <;> rfl

theorem effect_freeIndex (i : Instr) (s : State) : (effect i s).freeIndex = s.freeIndex := by
  cases i <;> simp only [effect] <;> (try split) <;> rfl

/-- A command that the phase table does not list is the protocol error of its kind and nothing else. -/
theorem effect_illegal {i : Instr} {s : State} (hl : s.phase.listens = true) (h : legalIn s.phase i = false) :
    ∃ code, (code = .seqFold ∨ code = .seqFin) ∧ effect i s = protocolError code s := by
  cases i <;> cases hp : s.phase <;> simp_all [legalIn, effect, Phase.listens]

/-! ### The step -/

/-- The state an accepted word leaves, the host's samples left alone. -/
def acceptNext (cw : CmdWord) (s : State) : State :=
  if s.phase.listens then
    match decode cw with
    | .command i => effect i s
    | .illegal => protocolError .illegalCmd s
  else s

theorem acceptWord_eq (cw : CmdWord) (s : State) : acceptWord cw s = .next (acceptNext cw s) := by
  unfold acceptWord acceptNext
  by_cases hf : s.phase = .fault
  · simp [hf, Phase.listens]
  · simp only [hf, if_false]
    cases decode cw <;> cases hl : s.phase.listens <;> simp [exec_eq, whenHeard, hl]

/-- The next state of every state. -/
def stepNext (s : State) : State :=
  if s.pins.rst then applyReset s.advanceInputs
  else if s.phase = .diffuse then dstep s.advanceInputs
  else if s.pins.cmdValid then acceptNext s.pins.cmd s.advanceInputs
  else s.advanceInputs

theorem step_eq (s : State) : step s = .next (stepNext s) := by
  unfold step edgeStep stepNext
  split
  · rfl
  · split
    · rfl
    · split
      · exact acceptWord_eq _ _
      · rfl

/-- The next state is the only outcome. -/
theorem eq_stepNext {s t : State} (h : step s = .next t) : t = stepNext s := by
  rw [step_eq] at h
  injection h with h
  exact h.symm

theorem stepNext_of_reset {s : State} (h : s.pins.rst = true) : stepNext s = applyReset s.advanceInputs := by
  simp [stepNext, h]

theorem stepNext_of_diffuse {s : State} (hr : s.pins.rst = false) (hp : s.phase = .diffuse) :
    stepNext s = dstep s.advanceInputs := by
  simp [stepNext, hr, hp]

theorem accepts_iff (s : State) :
    s.accepts = true ↔ s.pins.rst = false ∧ s.pins.cmdValid = true ∧ s.phase ≠ .diffuse := by
  simp [State.accepts, State.cmdReady, and_assoc]

/-- Outside DIFFUSE the host moves on to its next sample. -/
theorem advanceInputs_of_ready {s : State} (h : s.phase ≠ .diffuse) :
    s.advanceInputs = { s with inputs := s.inputs.tail } := by
  simp [State.advanceInputs, State.wordWaits, State.cmdReady, h]

theorem stepNext_of_accepts {s : State} (h : s.accepts = true) :
    stepNext s = acceptNext s.pins.cmd { s with inputs := s.inputs.tail } := by
  obtain ⟨hr, hv, hp⟩ := (accepts_iff s).mp h
  simp [stepNext, hr, hv, hp, advanceInputs_of_ready hp]

theorem stepNext_of_quiet {s : State} (hr : s.pins.rst = false) (hv : s.pins.cmdValid = false) (hp : s.phase ≠ .diffuse) :
    stepNext s = { s with inputs := s.inputs.tail } := by
  simp [stepNext, hr, hv, hp, advanceInputs_of_ready hp]

/-- Everything a step can do. -/
theorem stepNext_cases (s : State) :
    (s.pins.rst = true ∧ stepNext s = applyReset s.advanceInputs) ∨
    (s.pins.rst = false ∧ s.phase = .diffuse ∧ stepNext s = dstep s.advanceInputs) ∨
    (s.accepts = true ∧ s.phase = .fault ∧ stepNext s = { s with inputs := s.inputs.tail }) ∨
    (s.accepts = true ∧ s.phase.listens = true ∧ decode s.pins.cmd = .illegal ∧
      stepNext s = protocolError .illegalCmd { s with inputs := s.inputs.tail }) ∨
    (∃ i, s.accepts = true ∧ s.phase.listens = true ∧ decode s.pins.cmd = .command i ∧
      stepNext s = effect i { s with inputs := s.inputs.tail }) ∨
    (s.pins.rst = false ∧ s.pins.cmdValid = false ∧ s.phase ≠ .diffuse ∧
      stepNext s = { s with inputs := s.inputs.tail }) := by
  cases hr : s.pins.rst
  · by_cases hp : s.phase = .diffuse
    · exact .inr (.inl ⟨rfl, hp, stepNext_of_diffuse hr hp⟩)
    · cases hv : s.pins.cmdValid
      · exact .inr (.inr (.inr (.inr (.inr ⟨rfl, rfl, hp, stepNext_of_quiet hr hv hp⟩))))
      · have ha := (accepts_iff s).mpr ⟨hr, hv, hp⟩
        have hs := stepNext_of_accepts ha
        by_cases hf : s.phase = .fault
        · exact .inr (.inr (.inl ⟨ha, hf, by simp [hs, acceptNext, hf, Phase.listens]⟩))
        · have hl := (listens_iff s.phase).mpr ⟨hp, hf⟩
          cases hd : decode s.pins.cmd with
          | illegal => exact .inr (.inr (.inr (.inl ⟨ha, hl, rfl, by simp [hs, acceptNext, hl, hd]⟩)))
          | command i => exact .inr (.inr (.inr (.inr (.inl ⟨i, ha, hl, rfl, by simp [hs, acceptNext, hl, hd]⟩))))
  · exact .inl ⟨rfl, stepNext_of_reset hr⟩

/-! ### The micro-step -/

/-- Everything DSTEP can do (41_diffuse.md R92). -/
theorem dstep_cases (s : State) :
    (s.ic ≠ 7#3 ∧ dstep s = innerPass s) ∨
    (s.ic = 7#3 ∧ s.oc = 7#4 ∧ dstep s = complete (lastPass s)) ∨
    (s.ic = 7#3 ∧ s.oc ≠ 7#4 ∧ dstep s = lastPass s) := by
  have hoc : s.oc + 1#4 = 8#4 ↔ s.oc = 7#4 := by
    generalize s.oc = x; revert x; decide
  unfold dstep
  by_cases hi : s.ic = 7#3
  · by_cases ho : s.oc = 7#4
    · exact .inr (.inl ⟨hi, ho, by simp [hi, hoc.mpr ho]⟩)
    · exact .inr (.inr ⟨hi, ho, by simp [hi, mt hoc.mp ho]⟩)
  · exact .inl ⟨hi, by simp [hi]⟩

/-- DSTEP neither reads nor writes the host's samples. -/
theorem dstep_withInputs (s : State) (l : List PortSample) :
    dstep { s with inputs := l } = { dstep s with inputs := l } := by
  unfold dstep
  split
  · rfl
  · split <;> rfl

/-- DSTEP reads `SRC`, `OC` and `IC` and never `DST` (10_state.md R24). -/
theorem dstep_withDst (s : State) (d : Bytes8) : dstep { s with dst := d } = dstep s := by
  unfold dstep
  split
  · rfl
  · split <;> rfl

theorem dstep_st (s : State) : (dstep s).st = s.st := by
  rcases dstep_cases s with ⟨_, e⟩ | ⟨_, _, e⟩ | ⟨_, _, e⟩ <;> simp [e]

theorem dstep_errcode (s : State) : (dstep s).errcode = s.errcode := by
  rcases dstep_cases s with ⟨_, e⟩ | ⟨_, _, e⟩ | ⟨_, _, e⟩ <;> simp [e]

theorem dstep_freeIndex (s : State) : (dstep s).freeIndex = s.freeIndex := by
  rcases dstep_cases s with ⟨_, e⟩ | ⟨_, _, e⟩ | ⟨_, _, e⟩ <;> simp [e]

/-- Without a reset, a step in DIFFUSE is DSTEP on the registers, whatever else is on the port. -/
theorem stepNext_diffuse_eq {s : State} (hr : s.pins.rst = false) (hp : s.phase = .diffuse) :
    stepNext s = { dstep s with inputs := s.advanceInputs.inputs } := by
  rw [stepNext_of_diffuse hr hp]
  exact dstep_withInputs s s.advanceInputs.inputs

/-! ### Runs -/

theorem runSteps_zero (s : State) : runSteps 0 s = .next s := rfl

theorem run_succ_of_next {M : Host.Core} {k : Nat} {s s' : M.State} (h : M.step s = .next s') :
    M.run (k + 1) s = M.run k s' := by
  simp [Host.Core.run, h]

theorem runSteps_eq (k : Nat) (s : State) : runSteps k s = .next (stepNext^[k] s) := by
  induction k generalizing s with
  | zero => rfl
  | succ k ih =>
    exact (run_succ_of_next (M := Sys2Proof.core) (step_eq s)).trans (ih (stepNext s))

/-! ### The start and the end of a run (70_reset_and_hazards.md R149) -/

theorem startsRun_iff (s : State) : s.startsRun = true ↔ s.performs .init := by
  simp only [State.startsRun, State.performs, Bool.and_eq_true, beq_iff_eq, listens_iff, and_assoc]
  constructor
  · rintro ⟨ha, _, hf, hd⟩
    exact ⟨ha, hf, hd⟩
  · rintro ⟨ha, hf, hd⟩
    exact ⟨ha, ((accepts_iff s).mp ha).2.2, hf, hd⟩

theorem inRun_iff (s : State) : s.inRun = true ↔ s.phase = .absorb ∨ s.phase = .closed ∨ s.phase = .diffuse := by
  cases hp : s.phase <;> simp [State.inRun, hp]

theorem runEnd_eq (s : State) : s.runEnd = s.runEndAt (stepNext s) := by
  simp [State.runEnd, step_eq]

theorem runStarts_succ (k : Nat) (s : State) :
    runStarts (k + 1) s = s.startsRun.toNat + runStarts k (stepNext s) := by
  simp [runStarts, step_eq]

theorem runEnds_succ (k : Nat) (s : State) :
    runEnds (k + 1) s = s.runEnd.toList ++ runEnds k (stepNext s) := by
  simp [runEnds, step_eq]

end Sys2Proof.Machine
end

