-- ==== Sys2Proof/Tests/Slice0.lean ====
section
/-! SUPPORT. The model's own tests, each on values the spec writes out, and for every obligation with hypotheses a concrete state and operands that meet them. -/

namespace Sys2Proof.Tests

open Sys2Proof.Machine

/-! ### Well-formedness: an ill-formed term for each check -/

/-- R57: `op` = 5 is no operation. -/
theorem test_op_five_refused : CmdFields.opKnown ⟨5#4, 0#1, 0#3, 0#64⟩ = false ∧
    CmdFields.wellFormed ⟨5#4, 0#1, 0#3, 0#64⟩ = false := by decide

/-- R58: `z` must be 0 (the word `380000000000000000` of V-E1). -/
theorem test_z_set_refused : CmdFields.zClear ⟨3#4, 1#1, 0#3, 0#64⟩ = false ∧
    CmdFields.wellFormed ⟨3#4, 1#1, 0#3, 0#64⟩ = false := by decide

/-- R58: `n` must be 0 on INIT, FOLDW and FIN (`110000000000000000`, `210000000000000000`, `470000000000000000` of V-E1). -/
theorem test_count_refused :
    CmdFields.countAllowed ⟨1#4, 0#1, 1#3, 0#64⟩ = false ∧ CmdFields.wellFormed ⟨1#4, 0#1, 1#3, 0#64⟩ = false ∧
    CmdFields.wellFormed ⟨2#4, 0#1, 1#3, 0#64⟩ = false ∧ CmdFields.wellFormed ⟨4#4, 0#1, 7#3, 0#64⟩ = false ∧
    CmdFields.wellFormed ⟨3#4, 0#1, 7#3, 0#64⟩ = true := by decide

/-! ### Decoding: the words of V-E1, written out bit by bit from R56 and R57 -/

/-- INIT is `0001 0 000` and ignores its data. -/
theorem test_decode_init :
    decode (0b0001#4 ++ 0b0#1 ++ 0b000#3 ++ 0#64) = .command .init ∧
    decode 0x100000000000001234#72 = .command .init := by decide

/-- FOLDW is `0010 0 000`, then the word. -/
theorem test_decode_foldw :
    decode (0b0010#4 ++ 0b0#1 ++ 0b000#3 ++ 0x68656c6c6f20776f#64) = .command (.foldw 0x68656c6c6f20776f#64) ∧
    decode 0x20ffffffffffffffff#72 = .command (.foldw 0xffffffffffffffff#64) := by decide

/-- FOLDP is `0011 0 nnn`, then the data. -/
theorem test_decode_foldp :
    decode (0b0011#4 ++ 0b0#1 ++ 0b101#3 ++ 0x726c642121000000#64) = .command (.foldp 5#3 0x726c642121000000#64) ∧
    decode 0x37ffffffffffffffff#72 = .command (.foldp 7#3 0xffffffffffffffff#64) := by decide

/-- FIN is `0100 0 000` and ignores its data. -/
theorem test_decode_fin :
    decode (0b0100#4 ++ 0b0#1 ++ 0b000#3 ++ 0#64) = .command .fin ∧
    decode 0x40000000000000ffff#72 = .command .fin := by decide

/-- The ten illegal words of V-E1. -/
theorem test_decode_illegal :
    [0x000000000000000000#72, 0xffffffffffffffffff#72, 0x110000000000000000#72, 0x180000000000000000#72,
      0x280000000000000000#72, 0x210000000000000000#72, 0x380000000000000000#72, 0x3f0000000000000000#72,
      0x470000000000000000#72, 0x500000000000000000#72].all (fun cw => decode cw == .illegal) = true := by decide

/-- The table's words (spec/opcode_table.json), through the host's entry; one of the wrong width is refused. -/
theorem test_decodeTableWord :
    decodeTableWord 72 0x100000000000000000 = some .init ∧ decodeTableWord 72 0x200000000000000000 = some (.foldw 0#64) ∧
    decodeTableWord 72 0x370000000000000000 = some (.foldp 7#3 0#64) ∧
    decodeTableWord 72 0x400000000000000000 = some .fin ∧
    decodeTableWord 72 0x280000000000000000 = none ∧ decodeTableWord 80 0x100000000000000000 = none := by decide

/-! ### States to test on -/

/-- A state in a phase, with the seed in `ST` and, in FAULT, the error code `SEQ_FIN`. -/
def inPhase (p : Phase) (l : List PortSample) : State where
  st := 0x1c98c677de371c7d#64
  src := .ofWord 0x1c98c677de371c7d#64
  dst := .ofWord 0#64
  dg := 0#64
  az := false
  phase := p
  oc := 0#4
  ic := 0#3
  errcode := if p = .fault then .seqFin else .none
  inputs := l
  freeIndex := 1

/-- A state in DONE, with the digest of the empty message. -/
def finished (l : List PortSample) : State where
  st := 0x1c98c677de371c7d#64
  src := .ofWord 0xb4bb4023dcbf444b#64
  dst := .ofWord 0x4b50748bafb40cff#64
  dg := 0xb4bb4023dcbf444b#64
  az := true
  phase := .done
  oc := 8#4
  ic := 0#3
  errcode := .none
  inputs := l
  freeIndex := 1

/-- A state in DIFFUSE with the counters at the given values. -/
def diffusing (oc : BitVec 4) (ic : BitVec 3) (l : List PortSample) : State :=
  { inPhase .diffuse l with oc := oc, ic := ic }

/-- The next state of an outcome, if it has one. -/
def nextOf (o : Host.Outcome State Fault Refusal) : Option State :=
  match o with
  | .next s => some s
  | .fault _ => none
  | .refused _ => none

/-- One word on the port, kept until accepted. -/
def word (cw : CmdWord) : List PortSample := [.present cw]

/-! ### Single steps -/

/-- INIT from DONE: the seed is in `ST`, the flag is cleared, the digest register is not (R107, P21). -/
theorem test_init_from_done :
    (nextOf (step { finished (word 0x100000000000000000#72) with st := 0#64 })).map
      (fun t => (t.st, t.az, t.phase, t.dg, t.oc)) =
      some (0x1c98c677de371c7d#64, false, .absorb, 0xb4bb4023dcbf444b#64, 8#4) := by decide

/-- FOLDW, the example of R76. -/
theorem test_foldw_example :
    (nextOf (step (inPhase .absorb (word 0x2068656c6c6f20776f#72)))).map (fun t => (t.st, t.phase)) =
      some (0x74fdaa1bb1176b12#64, .absorb) := by decide

/-- FOLDP, the example of R77. -/
theorem test_foldp_example :
    (nextOf (step { inPhase .absorb (word 0x35726c642121000000#72) with st := 0x74fdaa1bb1176b12#64 })).map
      (fun t => (t.st, t.phase)) = some (0x0691ce3a90205c25#64, .closed) := by decide

/-- FOLDP with the counts 0, 1 and 7 of the table of ignored bytes V-F3. -/
theorem test_foldp_counts :
    (([0x300102030405060708#72, 0x310102030405060708#72, 0x370102030405060708#72].map fun cw =>
      (nextOf (step (inPhase .absorb (word cw)))).map (fun t => (t.st, t.phase))) =
      [some (0x1c98c677de371c7d#64, .closed), some (0x1daff140e9002b4a#64, .closed),
        some (0x1d9ac573db311b4a#64, .closed)]) := by decide

/-- FIN loads the bytes of `ST`, byte 0 first, and starts the count (R108). -/
theorem test_fin_loads :
    (nextOf (step { inPhase .closed (word 0x400000000000000000#72) with st := 0x0102030405060708#64 })).map
      (fun t => (t.src, t.oc, t.ic, t.phase)) =
      some (⟨1#8, 2#8, 3#8, 4#8, 5#8, 6#8, 7#8, 8#8⟩, 0#4, 0#3, .diffuse) := by decide

/-- DSTEP: three inner steps of V-D0. -/
theorem test_dstep_inner :
    ([0x0102030405060708#64, 0x1c98c677de371c7d#64, 0x80000000000000ff#64].map fun v =>
      (nextOf (step { diffusing 0#4 0#3 [] with src := .ofWord v })).map (fun t => (t.dst.toWord, t.src.toWord))) =
      [some (0x0203040506070808#64, 0x0a0b0b0b0b0b0b0a#64), some (0x98c677de371c7dbd#64, 0x5543931515934355#64),
        some (0x000000000000ff7f#64, 0x7fff00000000ff7f#64)] := by decide

/-- V-X1: every command and an illegal word, in every phase. -/
theorem test_phase_and_error_codes :
    ([Phase.idle, .absorb, .closed, .done, .fault].map fun p =>
      [0x100000000000000000#72, 0x200000000000000001#72, 0x310000000000000000#72, 0x400000000000000000#72,
        0x280000000000000000#72].map fun cw =>
        (nextOf (step (inPhase p (word cw)))).map fun t => (t.phase.code.toNat, t.errcode.code.toNat)) =
      [[some (1, 0), some (7, 2), some (7, 2), some (7, 3), some (7, 1)],
        [some (1, 0), some (1, 0), some (2, 0), some (3, 0), some (7, 1)],
        [some (1, 0), some (7, 2), some (7, 2), some (3, 0), some (7, 1)],
        [some (1, 0), some (7, 2), some (7, 2), some (7, 3), some (7, 1)],
        [some (7, 3), some (7, 3), some (7, 3), some (7, 3), some (7, 3)]] := by decide

/-- Reset during the diffusion (P20): the control registers only, the data registers being free. -/
theorem test_reset_in_diffusion :
    step (diffusing 1#4 2#3 [.assertReset]) = .next
      { st := Config.freeST 1, src := Config.freeSRC 1, dst := Config.freeDST 1, dg := Config.freeDG 1,
        az := false, phase := .idle, oc := 0#4, ic := 0#3, errcode := .none, inputs := [], freeIndex := 2 } := rfl

/-- The first instruction after reset, placed as the host places it: INIT runs and FIN is out of sequence. -/
theorem test_first_word_after_reset :
    step (State.reset.withFetchWord 72 0x100000000000000000) = exec .init State.reset ∧
    step (State.reset.withFetchWord 72 0x400000000000000000) = exec .fin State.reset := ⟨rfl, rfl⟩

/-- The assembler reads and expands `HASH "hello world!!"` (V-E2) and refuses `CHUNK "hello"`. -/
theorem test_assembler :
    ((parseLine "HASH \"hello world!!\"".toList).bind AsmLine.expand) =
      some [0x100000000000000000#72, 0x2068656c6c6f20776f#72, 0x35726c642121000000#72, 0x400000000000000000#72] ∧
    ((parseLine "CHUNK \"hello\"".toList).bind AsmLine.expand) = none ∧
    ((parseLine "FOLDP 5, 0x726c642121000000 -- the tail".toList).bind AsmLine.expand) =
      some [0x35726c642121000000#72] := by decide

/-! ### The hypotheses of the obligations are met: one witness for each obligation that has hypotheses, clause by clause -/

theorem witness_EncodeDecodeRoundTrip :
    decode 0x20ffffffffffffffff#72 = .command (.foldw 0xffffffffffffffff#64) ∧
    decode 0x37ffffffffffffffff#72 = .command (.foldp 7#3 0xffffffffffffffff#64) ∧
    decode 0x100000000000001234#72 = .command .init ∧ decode 0x40000000000000ffff#72 = .command .fin ∧
    decode 0x30ffffffffffffffff#72 = .command (.foldp 0#3 0xffffffffffffffff#64) ∧
    decode 0x300000000000000000#72 = .command (.foldp 0#3 0#64) ∧ 0x30ffffffffffffffff#72 ≠ 0x300000000000000000#72 ∧
    decode 0x37ffffffffffffff00#72 = .command (.foldp 7#3 0xffffffffffffff00#64) ∧
    (∀ i : Fin 8, i.val < (7#3).toNat → byteAt 0xffffffffffffffff#64 i = byteAt 0xffffffffffffff00#64 i) := by decide

theorem witness_IllegalWordsRaiseIllegalCmd :
    let s := inPhase .idle (word 0x280000000000000000#72)
    s.accepts = true ∧ s.phase ≠ .fault ∧ decode s.pins.cmd = .illegal := by decide

theorem witness_InitSeedsTheState :
    (inPhase .idle []).phase = .idle ∧ (inPhase .absorb []).phase = .absorb ∧ (inPhase .closed []).phase = .closed ∧
    (finished []).phase = .done ∧ (inPhase .fault []).phase = .fault ∧ (inPhase .diffuse []).phase = .diffuse ∧
    exec .init (inPhase .idle []) = .next (inPhase .absorb []) ∧
    exec .init (inPhase .fault []) = .next (inPhase .fault []) ∧
    (let s := finished (word 0x100000000000000000#72)
     s.pins.rst = false ∧ ∃ t, step s = .next t ∧ t.phase ≠ s.phase ∧ t.phase ≠ .fault) :=
  ⟨rfl, rfl, rfl, rfl, rfl, rfl, rfl, rfl, rfl, _, step_eq _, by decide, by decide⟩

theorem witness_FoldwXorsOneWord :
    (inPhase .absorb []).phase = .absorb ∧ (inPhase .absorb []).st = 0x1c98c677de371c7d#64 ∧
    (inPhase .idle []).phase = .idle ∧ (inPhase .closed []).phase = .closed ∧ (finished []).phase = .done ∧
    (inPhase .fault []).phase = .fault ∧ (inPhase .diffuse []).phase = .diffuse ∧
    exec (.foldw 0x68656c6c6f20776f#64) (inPhase .absorb []) =
      .next { inPhase .absorb [] with st := 0x74fdaa1bb1176b12#64 } :=
  ⟨rfl, rfl, rfl, rfl, rfl, rfl, rfl, rfl⟩

theorem witness_FoldpFoldsPaddedTailAndCloses :
    let s : State := { inPhase .absorb [] with st := 0x74fdaa1bb1176b12#64 }
    s.phase = .absorb ∧ s.st = 0x74fdaa1bb1176b12#64 ∧ (1#3 ≠ 0#3 ∧ 7#3 ≠ 0#3) ∧
    (inPhase .idle []).phase = .idle ∧ (inPhase .closed []).phase = .closed ∧ (finished []).phase = .done ∧
    (inPhase .fault []).phase = .fault ∧ (inPhase .diffuse []).phase = .diffuse ∧
    (∀ i : Fin 8, i.val < (7#3).toNat → byteAt 0xff#64 i = byteAt 0#64 i) ∧
    (∀ i : Fin 8, i.val < (7#3).toNat → byteAt 0x3737373737373700#64 i = 0x37#8) ∧
    (∀ i : Fin 8, i.val < (1#3).toNat → byteAt 0x37ffffffffffffff#64 i = 0x37#8) := by decide

theorem witness_FoldpFoldsPaddedTailAndCloses_closed :
    (inPhase .closed []).phase = .closed ∧ exec .init (inPhase .closed []) = .next (inPhase .absorb []) ∧
    exec .fin (inPhase .closed []) = .next (inPhase .diffuse []) ∧
    exec (.foldp 7#3 0#64) (inPhase .closed []) =
      .next { inPhase .fault [] with errcode := .seqFold } := ⟨rfl, rfl, rfl, rfl⟩

theorem witness_FinHandsTheStateToTheDiffuser :
    (inPhase .absorb []).phase = .absorb ∧ (inPhase .closed []).phase = .closed ∧ (inPhase .idle []).phase = .idle ∧
    (finished []).phase = .done ∧ (inPhase .fault []).phase = .fault ∧ (inPhase .diffuse []).phase = .diffuse ∧
    (inPhase .absorb []).st = 0x1c98c677de371c7d#64 ∧ (inPhase .absorb []).noResetAhead = true := by decide

theorem witness_CommandFaultsExactlyWhereIllegal :
    (finished []).phase ≠ .diffuse ∧ (finished []).phase ≠ .fault ∧ legalIn (finished []).phase .init = true ∧
    legalIn (finished []).phase .fin = false := by decide

theorem witness_DstepFollowsTheRule :
    let a := diffusing 0#4 6#3 []
    let b := diffusing 7#4 7#3 []
    let c := diffusing 6#4 7#3 (word 0x100000000000000000#72)
    (a.pins.rst = false ∧ a.phase = .diffuse ∧ a.ic ≠ 7#3) ∧
    (b.pins.rst = false ∧ b.phase = .diffuse ∧ b.ic = 7#3 ∧ b.oc + 1#4 = 8#4) ∧
    (c.pins.rst = false ∧ c.phase = .diffuse ∧ c.ic = 7#3 ∧ c.oc + 1#4 ≠ 8#4) := by decide

theorem witness_DstepFollowsTheRule_outside :
    ((finished []).pins.rst = false ∧ (finished []).phase ≠ .diffuse ∧ ∃ t, step (finished []) = .next t) ∧
    ((inPhase .closed []).noResetAhead = true ∧ (inPhase .closed []).phase = .closed ∧
      ∃ t, exec .fin (inPhase .closed []) = .next t) :=
  ⟨⟨rfl, nofun, _, step_eq _⟩, rfl, rfl, _, rfl⟩

theorem witness_DiffuserPalindrome :
    let a := diffusing 0#4 0#3 []
    let b : State := { diffusing 0#4 7#3 [] with src := .ofWord 0x5543931515934355#64 }
    (a.pins.rst = false ∧ a.phase = .diffuse ∧ a.ic ≠ 7#3 ∧ ∃ t, step a = .next t) ∧
    (b.pins.rst = false ∧ b.phase = .diffuse ∧ b.ic = 7#3 ∧ feedback b.src = 0#8 ∧ ∃ t, step b = .next t) :=
  ⟨⟨rfl, rfl, by decide, _, step_eq _⟩, rfl, rfl, rfl, by decide, _, step_eq _⟩

theorem witness_DiffuserPalindrome_rounds :
    let r := diffusing 0#4 6#3 []
    let f := inPhase .closed []
    (∃ s, step r = .next s ∧ s.pins.rst = false ∧ s.phase = .diffuse ∧ s.ic = 7#3 ∧ s.stepsDone ≠ 0 ∧
      ∃ t, step s = .next t) ∧
    (f.phase = .closed ∧ f.noResetAhead = true ∧ ∃ t, exec .fin f = .next t) :=
  ⟨⟨_, step_eq _, rfl, rfl, rfl, by decide, _, step_eq _⟩, rfl, rfl, _, rfl⟩

theorem witness_FinAndDstepsComputeDiffuse :
    let a := inPhase .absorb (word 0x400000000000000000#72)
    let b := inPhase .closed (.present 0x400000000000000000#72 :: word 0x100000000000000000#72)
    (a.phase = .absorb ∧ a.inputs = .present (encode .fin) :: [] ∧ a.noResetAhead = true) ∧
    (b.phase = .closed ∧ b.inputs = .present (encode .fin) :: word 0x100000000000000000#72 ∧
      b.noResetAhead = true) := by decide

/-- The invariant in DIFFUSE, at the first and at the last micro-step. -/
theorem diffusing_inv : StateInv (diffusing 0#4 0#3 []) ∧ StateInv (diffusing 7#4 7#3 []) := by
  constructor <;> constructor <;> decide

theorem finished_inv (l : List PortSample) : StateInv (finished l) := by
  constructor
  · exact (by decide : 8#4 ≤ 8#4)
  · intro h; cases h
  · intro _; exact ⟨rfl, rfl⟩
  · exact ⟨fun h => absurd rfl h, fun h => by cases h⟩
  · intro _; exact ⟨(by decide : 0xb4bb4023dcbf444b#64 = (Bytes8.ofWord 0xb4bb4023dcbf444b#64).toWord), rfl⟩
  · intro _; exact .inl rfl

theorem witness_DiffusionEndsAfterExactly64Steps :
    (StateInv (diffusing 0#4 0#3 []) ∧ (diffusing 0#4 0#3 []).phase = .diffuse ∧
      (diffusing 0#4 0#3 []).noResetAhead = true ∧ 63 < 64 - (diffusing 0#4 0#3 []).stepsDone) ∧
    (StateInv (diffusing 7#4 7#3 []) ∧ (diffusing 7#4 7#3 []).phase = .diffuse ∧
      (diffusing 7#4 7#3 []).noResetAhead = true ∧ 0 < 64 - (diffusing 7#4 7#3 []).stepsDone) :=
  ⟨⟨diffusing_inv.1, by decide⟩, diffusing_inv.2, by decide⟩

/-- The two states of V-D10 share a digest, and so its first four bytes. -/
theorem witness_DigestMirrorsItself :
    (0 : Fin 8).val ≤ 3 ∧ (3 : Fin 8).val ≤ 3 ∧
    (diffuse 0x1c98c677de371c7d#64).extractLsb' 32 32 = (diffuse 0x1c18c677de371c7d#64).extractLsb' 32 32 := by
  decide +kernel

theorem witness_DigestBlindToFirstBytes :
    let s := diffusing 0#4 0#3 []
    (s.pins.rst = false ∧ s.phase = .diffuse ∧ s.oc = 0#4 ∧ s.ic = 0#3 ∧ ∃ t, step s = .next t) ∧
    (let v := 0x1c98c677de371c7d#64
     let w := 0x1c18c677de371c7d#64
     (∀ i : Fin 8, 2 ≤ i.val → byteAt v i = byteAt w i) ∧
     (let x := byteAt v 2 ^^^ byteAt v 3 ^^^ byteAt v 4 ^^^ byteAt v 5 ^^^ byteAt v 6 ^^^ byteAt v 7
      byteAt v 1 + (byteAt v 0 ^^^ byteAt v 1 ^^^ x) = byteAt w 1 + (byteAt w 0 ^^^ byteAt w 1 ^^^ x))) :=
  ⟨⟨rfl, rfl, rfl, rfl, _, step_eq _⟩, by decide⟩

theorem witness_PhaseTable :
    (∀ s : State, ∃ t, step s = .next t) ∧ (diffusing 1#4 2#3 [.assertReset]).pins.rst = true ∧
    ((diffusing 7#4 7#3 []).pins.rst = false ∧ (diffusing 7#4 7#3 []).phase = .diffuse) ∧
    ([Phase.idle, .absorb, .closed, .done, .fault].all (fun p => (inPhase p (word 0x280000000000000000#72)).accepts) = true ∧
      decode 0x100000000000000000#72 = .command .init ∧ decode 0x200000000000000001#72 = .command (.foldw 1#64) ∧
      decode 0x310000000000000000#72 = .command (.foldp 1#3 0#64) ∧ decode 0x400000000000000000#72 = .command .fin ∧
      decode 0x280000000000000000#72 = .illegal) ∧
    ((finished []).pins.rst = false ∧ (finished []).pins.cmdValid = false ∧ (finished []).phase ≠ .diffuse) :=
  ⟨fun s => ⟨_, step_eq s⟩, by decide⟩

theorem witness_ProtocolErrorIsPrecise :
    State.errs (inPhase .idle (word 0x280000000000000000#72)) ∧ State.errs (finished (word 0x400000000000000000#72)) :=
  ⟨⟨rfl, rfl, .inl (by decide)⟩, rfl, rfl, .inr ⟨.fin, by decide, rfl⟩⟩

theorem witness_ErrorCodesNameTheirCause :
    let s := finished (word 0x310000000000000000#72)
    s.errcode = .none ∧ s.phase ≠ .fault ∧ s.accepts = true ∧
    decode s.pins.cmd = .command (.foldp 1#3 0#64) ∧ ∃ t, step s = .next t :=
  ⟨rfl, by decide, rfl, by decide, _, step_eq _⟩

theorem witness_FaultIgnoresEveryWord :
    let s := inPhase .fault (.present 0x100000000000000000#72 :: word 0#72)
    s.phase = .fault ∧ s.noResetAhead = true := by decide

theorem witness_OnlyResetLeavesFault :
    let s := inPhase .fault [.assertReset]
    let u := inPhase .fault (word 0#72)
    (s.phase = .fault ∧ s.pins.rst = true ∧ ∃ t, step s = .next t ∧ t.phase ≠ .fault) ∧
    u.phase = .fault ∧ u.accepts = true ∧ decode u.pins.cmd = .illegal :=
  ⟨⟨rfl, rfl, _, step_eq _, nofun⟩, rfl, rfl, by decide⟩

theorem witness_ResetClearsControlRegisters :
    (diffusing 1#4 2#3 [.assertReset]).pins.rst = true ∧
    (finished [⟨true, true, 0x100000000000000000#72, true⟩]).pins.rst = true := by decide

theorem witness_ChecksAreOrdered :
    let a := finished [⟨true, true, 0x280000000000000000#72, true⟩]
    let b := inPhase .fault (word 0x280000000000000000#72)
    let c := finished (word 0x280000000000000000#72)
    let d := finished (word 0x400000000000000000#72)
    let e := inPhase .idle (word 0x280000000000000000#72)
    (a.pins.rst = true) ∧ (b.phase = .fault ∧ b.accepts = true) ∧
    (c.accepts = true ∧ c.phase ≠ .fault ∧ decode c.pins.cmd = .illegal) ∧
    (d.accepts = true ∧ d.phase ≠ .fault ∧ decode d.pins.cmd = .command .fin ∧ legalIn d.phase .fin = false) ∧
    (e.accepts = true ∧ e.phase = .idle ∧ e.pins.cmd = 0x280000000000000000#72) ∧ ∀ s : State, ∃ t, step s = .next t :=
  ⟨rfl, by decide, by decide, by decide, by decide, fun s => ⟨_, step_eq s⟩⟩

theorem witness_OutputPorts :
    let s := finished [.quiet]
    let t := finished (word 0x400000000000000000#72)
    (s.phase = .done ∧ s.pins.rst = false ∧ s.accepts = false ∧ ¬ s.performs .init) ∧
    (t.phase = .done ∧ t.pins.rst = false ∧ t.accepts = true ∧ ¬ t.performs .init) ∧ ∀ s : State, ∃ t, step s = .next t :=
  ⟨⟨rfl, rfl, rfl, fun h => Bool.noConfusion h.1⟩,
    ⟨rfl, rfl, rfl, fun h => absurd h.2.2 (by decide)⟩, fun s => ⟨_, step_eq s⟩⟩

theorem witness_StepRunsTheDecodedCommand :
    let s := inPhase .absorb (word 0x2068656c6c6f20776f#72)
    s.accepts = true ∧ decode s.pins.cmd = .command (.foldw 0x68656c6c6f20776f#64) ∧
    State.reset.phase ≠ .diffuse ∧ decodeTableWord 72 0x370000000000000000 = some (.foldp 7#3 0#64) :=
  ⟨rfl, by decide, nofun, by decide⟩

theorem witness_StepKeepsInvariant :
    StateInv (finished []) ∧ (∃ t, step (finished []) = .next t) ∧
    StateInv (diffusing 7#4 7#3 []) ∧ (∃ t, step (diffusing 7#4 7#3 []) = .next t) ∧
    (diffusing 15#4 7#3 [.assertReset]).pins.rst = true ∧ ∃ t, step (diffusing 15#4 7#3 [.assertReset]) = .next t :=
  ⟨finished_inv [], ⟨_, step_eq _⟩, diffusing_inv.2, ⟨_, step_eq _⟩, rfl, _, step_eq _⟩

/-- Each register of the table changes in some step. -/
theorem witness_OnlyListedWritersWrite :
    let foldw := inPhase .absorb (word 0x2068656c6c6f20776f#72)
    let fin : State := { inPhase .closed (word 0x400000000000000000#72) with st := 0#64, oc := 8#4, ic := 1#3 }
    let last := diffusing 7#4 7#3 []
    let err := inPhase .idle (word 0#72)
    (foldw.pins.rst = false ∧ (nextOf (step foldw)).map (·.st) ≠ some foldw.st) ∧
    (fin.pins.rst = false ∧ (nextOf (step fin)).map (·.src) ≠ some fin.src ∧
      (nextOf (step fin)).map (·.oc) ≠ some fin.oc ∧ (nextOf (step fin)).map (·.ic) ≠ some fin.ic) ∧
    (last.pins.rst = false ∧ (nextOf (step last)).map (·.dst) ≠ some last.dst ∧
      (nextOf (step last)).map (·.dg) ≠ some last.dg) ∧
    (err.pins.rst = false ∧ (nextOf (step err)).map (·.errcode) ≠ some err.errcode) ∧
    (nextOf (step (finished (word 0x100000000000000000#72)))).map (·.az) ≠ some true := by decide

theorem witness_WordsWaitForTheDiffuser :
    let s := diffusing 0#4 0#3 []
    let e := PortSample.present 0x100000000000000000#72
    s.phase = .diffuse ∧ e.rst = false ∧ PortSample.quiet.rst = false ∧ e.cmdValid = true ∧ e.hold = true ∧
    (∀ l, ∃ t, step { s with inputs := l } = .next t) ∧
    (finished [.quiet]).pins.rst = false ∧ (finished [.quiet]).pins.cmdValid = false ∧ (finished [.quiet]).phase ≠ .diffuse :=
  ⟨rfl, rfl, rfl, rfl, rfl, fun _ => ⟨_, step_eq _⟩, rfl, rfl, nofun⟩

theorem witness_OutputsDependOnlyOnInputsSinceInit :
    let rest := word 0x2068656c6c6f20776f#72 ++ word 0x400000000000000000#72
    let s := finished (.present (encode .init) :: rest)
    let s' := inPhase .idle (.present (encode .init) :: rest)
    StateInv s ∧ StateInv s' ∧ s.phase.listens = true ∧ s'.phase.listens = true ∧ s ≠ s' ∧
    s.inputs = .present (encode .init) :: rest ∧ s'.inputs = .present (encode .init) :: rest ∧
    (∃ t, runSteps 3 s = .next t) ∧ ∃ t, runSteps 3 s' = .next t :=
  ⟨finished_inv _, by constructor <;> decide, rfl, rfl, by decide, rfl, rfl, ⟨_, runSteps_eq _ _⟩, _, runSteps_eq _ _⟩

theorem witness_NothingObservableDependsOnDst :
    let s := diffusing 0#4 0#3 []
    (∃ t, runSteps 2 s = .next t) ∧ ∃ t, runSteps 2 { s with dst := .ofWord 1#64 } = .next t :=
  ⟨⟨_, runSteps_eq _ _⟩, _, runSteps_eq _ _⟩

theorem witness_PadwordFillsWithFillBytes :
    (1 ≤ [1#8].length ∧ [1#8].length ≤ 7) ∧
    (1 ≤ (List.replicate 7 1#8).length ∧ (List.replicate 7 1#8).length ≤ 7) ∧
    ([] : List Byte).length = 0 ∧ 8 ≤ (List.replicate 8 1#8).length := by decide

theorem witness_FoldChunkContract :
    (List.replicate 16 1#8).length % 8 = 0 ∧ (1 ≤ [1#8].length ∧ [1#8].length ≤ 7) ∧
    (1 ≤ (List.replicate 7 1#8).length ∧ (List.replicate 7 1#8).length ≤ 7) := by decide

/-- Two chunks, one of them empty. -/
theorem witness_ChunkBoundariesAreInvisible :
    ∀ x ∈ [List.replicate 8 1#8, []], x.length % 8 = 0 := by decide

theorem witness_FoldProperties :
    (1 ≤ [0#8].length ∧ [0#8].length ≤ 7) ∧
    (1 ≤ (List.replicate 7 0#8).length ∧ (List.replicate 7 0#8).length ≤ 7) ∧
    [1#64, 2#64].Perm [2#64, 1#64] := by decide

/-- One full word and a tail of one byte. -/
theorem witness_MsgSequenceFoldsTheMessage :
    let m := List.replicate 9 1#8
    let s := inPhase .absorb (presentAll ((msgCommands m).map encode) ++ [.quiet])
    s.phase = .absorb ∧ s.inputs = presentAll ((msgCommands m).map encode) ++ [.quiet] := by decide

theorem witness_HashSequenceComputesHashBytes :
    let ws := [0x100000000000000000#72, 0x310000000000000000#72, 0x400000000000000000#72]
    StateInv (finished (presentAll ws)) ∧ (finished (presentAll ws)).phase.listens = true ∧
    (AsmLine.hash [0#8]).expand = some ws ∧ (finished (presentAll ws)).inputs = presentAll ws :=
  ⟨finished_inv _, rfl, by decide, rfl⟩

theorem witness_SourceLoopAgreesOnFullReads :
    8 % 8 = 0 ∧ (∀ r ∈ [List.replicate 8 1#8, [2#8]], 1 ≤ r.length ∧ r.length ≤ 8) ∧
    ∀ r ∈ [List.replicate 8 1#8, [2#8]].dropLast, r.length % 8 = 0 := by decide

theorem witness_HexFormIsFaithful : hexstr 0xb4bb4023dcbf444b#64 = hexstr 0xb4bb4023dcbf444b#64 := rfl

theorem witness_PseudoInstructionsExpand :
    0 < (List.replicate 9 1#8).length / 8 ∧ (List.replicate 9 1#8).length % 8 ≠ 0 ∧
    .foldp 1#3 0x0100000000000000#64 ∈ msgCommands (List.replicate 9 1#8) ∧
    .foldp 7#3 0x0101010101010100#64 ∈ msgCommands (List.replicate 7 1#8) := by decide

/-- Every way a run ends and a host that sends nothing, and the errors of R149 that end none: in IDLE, in DONE. -/
theorem witness_RunsEndInExactlyOneWay :
    ((diffusing 7#4 7#3 []).inRun = true ∧ (diffusing 7#4 7#3 []).runEnd.bind RunEnd.result ≠ none) ∧
    ((inPhase .absorb (word 0x100000000000000000#72)).inRun = true ∧
      (inPhase .absorb (word 0x100000000000000000#72)).runEnd = some .abandoned ∧
      (diffusing 1#4 2#3 [.assertReset]).runEnd = some .abandoned) ∧
    ((inPhase .closed (word 0x200000000000000001#72)).inRun = true ∧
      (inPhase .closed (word 0x200000000000000001#72)).runEnd = some (.faulted .seqFold)) ∧
    ((inPhase .idle (word 0x400000000000000000#72)).inRun = false ∧
      (inPhase .idle (word 0x400000000000000000#72)).runEnd = none ∧
      (finished (word 0x400000000000000000#72)).inRun = false ∧
      (finished (word 0x400000000000000000#72)).runEnd = none) ∧
    ((inPhase .absorb []).pins.rst = false ∧ (inPhase .absorb []).pins.cmdValid = false ∧
      (inPhase .absorb []).runEnd = none) ∧
    (runEnds 3 (inPhase .idle (word 0x100000000000000000#72 ++ word 0x100000000000000000#72 ++ word 0#72)) =
      [.abandoned, .faulted .illegalCmd]) ∧
    ∀ s : State, ∃ t, step s = .next t :=
  ⟨by decide, by decide, by decide, by decide, by decide, by decide, fun s => ⟨_, step_eq s⟩⟩

end Sys2Proof.Tests
end

section
/-! The textual form of a digest (00_scope.md R15): each stage, digit, byte and list of bytes, can be read back. -/

namespace Sys2Proof

theorem Bytes8.toList_injective : Function.Injective Bytes8.toList := by
  rintro ⟨⟩ ⟨⟩ h
  simpa [Bytes8.toList] using h

theorem Bytes8.ofWord_injective : Function.Injective Bytes8.ofWord :=
  Function.LeftInverse.injective Bytes8.toWord_ofWord

end Sys2Proof

namespace Sys2Proof.Machine

theorem nibbles_append (b : Byte) : b.extractLsb' 4 4 ++ b.extractLsb' 0 4 = b :=
  (BitVec.extractLsb'_append_extractLsb'_eq_extractLsb' rfl).trans BitVec.extractLsb'_eq_self

theorem hexDigit_injective : Function.Injective hexDigit := by
  unfold Function.Injective
  decide

@[simp] theorem length_hexByte (b : Byte) : (hexByte b).length = 2 := rfl

theorem hexByte_injective : Function.Injective hexByte := by
  intro a b h
  obtain ⟨hhigh, hlow⟩ : hexDigit (a.extractLsb' 4 4) = hexDigit (b.extractLsb' 4 4) ∧
      hexDigit (a.extractLsb' 0 4) = hexDigit (b.extractLsb' 0 4) := by
    simpa [hexByte] using h
  rw [← nibbles_append a, ← nibbles_append b, hexDigit_injective hhigh, hexDigit_injective hlow]

/-- Every byte takes two characters, so where one byte's text ends is known and the texts need no separator. -/
theorem flatMap_hexByte_injective : Function.Injective fun bs : List Byte => bs.flatMap hexByte := by
  intro xs
  induction xs with
  | nil =>
    rintro (_ | ⟨y, ys⟩) h
    · rfl
    · simp [hexByte] at h
  | cons x xs ih =>
    rintro (_ | ⟨y, ys⟩) h
    · simp [hexByte] at h
    · simp only [List.flatMap_cons] at h
      obtain ⟨hbyte, hrest⟩ := List.append_inj h (by simp)
      rw [hexByte_injective hbyte, ih hrest]

theorem length_hexstr (v : Word64) : (hexstr v).length = 16 := rfl

theorem hexstr_injective : Function.Injective hexstr :=
  flatMap_hexByte_injective.comp (Bytes8.toList_injective.comp Bytes8.ofWord_injective)

/-- Settles O44: a digest's text is an injective function of its bytes, and its length and the audited spelling compute. -/
theorem hexFormIsFaithful : Obligations.HexFormIsFaithful :=
  ⟨length_hexstr, fun _ _ h => hexstr_injective h, by decide⟩

end Sys2Proof.Machine
end

section
/-! What each state operation writes (10_state.md R20): everything a command can do, and the steps' dependence on `DST`. -/

namespace Sys2Proof.Machine

/-- Everything a heard command can do: a protocol error where the phase table does not list it, its writes where it does. -/
theorem effect_cases {i : Instr} {s : State} (hl : s.phase.listens = true) :
    (legalIn s.phase i = false ∧ ∃ code, code ≠ .none ∧ effect i s = protocolError code s) ∨
    (legalIn s.phase i = true ∧
      ((i = .init ∧ effect i s = { s with st := Config.initialState, az := false, phase := .absorb }) ∨
      (∃ d, i = .foldw d ∧ s.phase = .absorb ∧ effect i s = { s with st := foldw s.st d }) ∨
      (∃ n d, i = .foldp n d ∧ s.phase = .absorb ∧
        effect i s = { s with st := if n = 0#3 then s.st else foldw s.st (paddedTail n d), phase := .closed }) ∨
      (i = .fin ∧ (s.phase = .absorb ∨ s.phase = .closed) ∧
        effect i s = { s with src := .ofWord s.st, oc := 0#4, ic := 0#3, phase := .diffuse }))) := by
  cases hi : legalIn s.phase i with
  | false =>
    obtain ⟨code, rfl | rfl, he⟩ := effect_illegal hl hi
    · exact .inl ⟨rfl, .seqFold, nofun, he⟩
    · exact .inl ⟨rfl, .seqFin, nofun, he⟩
  | true =>
    refine .inr ⟨rfl, ?_⟩
    cases i with
    | init => exact .inl ⟨rfl, rfl⟩
    | foldw d =>
      have hp : s.phase = .absorb := by cases hp : s.phase <;> simp [hp, legalIn] at hi ⊢
      exact .inr (.inl ⟨d, rfl, hp, if_pos hp⟩)
    | foldp n d =>
      have hp : s.phase = .absorb := by cases hp : s.phase <;> simp [hp, legalIn] at hi ⊢
      exact .inr (.inr (.inl ⟨n, d, rfl, hp, if_pos hp⟩))
    | fin =>
      have hp : s.phase = .absorb ∨ s.phase = .closed := by cases hp : s.phase <;> simp [hp, legalIn] at hi ⊢
      exact .inr (.inr (.inr ⟨rfl, hp, if_pos hp⟩))

/-- No command reads or writes `DST`. -/
theorem effect_withDst (i : Instr) (s : State) (d : Bytes8) :
    effect i { s with dst := d } = { effect i s with dst := d } := by
  cases i with
  | init => rfl
  | foldw | foldp | fin =>
    simp only [effect]
    split <;> rfl

/-- Nor does the acceptance of any word. -/
theorem acceptNext_withDst (cw : CmdWord) (s : State) (d : Bytes8) :
    acceptNext cw { s with dst := d } = { acceptNext cw s with dst := d } := by
  unfold acceptNext
  split
  · cases decode cw with
    | illegal => rfl
    | command i => exact effect_withDst i s d
  · rfl

/-- A step leaves states that differ in `DST` alone so: Reset and DSTEP overwrite `DST`, every other step keeps it. -/
theorem stepNext_withDst (s : State) (d : Bytes8) :
    ∃ d', stepNext { s with dst := d } = { stepNext s with dst := d' } := by
  cases hr : s.pins.rst with
  | true =>
    rw [stepNext_of_reset (s := { s with dst := d }) hr, stepNext_of_reset hr]
    exact ⟨_, rfl⟩
  | false =>
    by_cases hp : s.phase = .diffuse
    · rw [stepNext_of_diffuse (s := { s with dst := d }) hr hp, stepNext_of_diffuse hr hp]
      exact ⟨_, dstep_withDst s.advanceInputs d⟩
    cases hv : s.pins.cmdValid with
    | true =>
      have ha := (accepts_iff s).mpr ⟨hr, hv, hp⟩
      rw [stepNext_of_accepts (s := { s with dst := d }) ha, stepNext_of_accepts ha]
      exact ⟨d, acceptNext_withDst s.pins.cmd { s with inputs := s.inputs.tail } d⟩
    | false =>
      rw [stepNext_of_quiet (s := { s with dst := d }) hr hv hp, stepNext_of_quiet hr hv hp]
      exact ⟨d, rfl⟩

theorem iterate_stepNext_withDst (k : Nat) (s : State) (d : Bytes8) :
    ∃ d', stepNext^[k] { s with dst := d } = { stepNext^[k] s with dst := d' } := by
  induction k with
  | zero => exact ⟨d, rfl⟩
  | succ k ih =>
    obtain ⟨dk, hk⟩ := ih
    simp only [Function.iterate_succ_apply', hk]
    exact stepNext_withDst _ dk

/-- Settles O33: every step carries the relation "differ in `DST` alone" on, and no output reads `DST`. -/
theorem nothingObservableDependsOnDst : Obligations.NothingObservableDependsOnDst := by
  intro s d k t t' ht ht'
  rw [runSteps_eq] at ht ht'
  cases ht
  cases ht'
  obtain ⟨d', h⟩ := iterate_stepNext_withDst k s d
  rw [h]
  exact ⟨rfl, rfl⟩

end Sys2Proof.Machine
end

section
/-! The invariant of R38: one lemma per state operation, then every step. -/

namespace Sys2Proof.Machine

/-- In IDLE, ABSORB and CLOSED the invariant asks for the bound of `OC` and for clear `ERRCODE` and `AZ`. -/
theorem stateInv_of_idle_absorb_closed {s : State} (hp : s.phase = .idle ∨ s.phase = .absorb ∨ s.phase = .closed)
    (hoc : s.oc ≤ 8#4) (he : s.errcode = .none) (ha : s.az = false) : StateInv s := by
  constructor <;> rcases hp with hp | hp | hp <;> simp [hp, hoc, he, ha]

/-- In DIFFUSE the invariant asks for `OC ≤ 7` and for clear `ERRCODE` and `AZ`. -/
theorem stateInv_of_diffuse {s : State} (hp : s.phase = .diffuse) (hoc : s.oc ≤ 7#4) (he : s.errcode = .none)
    (ha : s.az = false) : StateInv s := by
  have hoc' : s.oc ≤ 8#4 := BitVec.le_trans hoc (by decide)
  constructor <;> simp [hp, hoc, hoc', he, ha]

/-- Settles O28. -/
theorem resetStateHasInvariant : Obligations.ResetStateHasInvariant :=
  stateInv_of_idle_absorb_closed (.inl rfl) (by decide) rfl rfl

theorem stateInv_applyReset (s : State) : StateInv (applyReset s) :=
  stateInv_of_idle_absorb_closed (.inl rfl) (by simp) rfl rfl

/-- The invariant speaks of registers only. -/
theorem StateInv.withInputs {s : State} (h : StateInv s) (l : List PortSample) : StateInv { s with inputs := l } :=
  ⟨h.ocBound, h.diffuseCounts, h.doneCounts, h.errorIffFault, h.doneDigest, h.flagPhases⟩

theorem StateInv.protocolError {s : State} (h : StateInv s) {code : ErrCode} (hc : code ≠ .none) :
    StateInv (protocolError code s) where
  ocBound := h.ocBound
  diffuseCounts := nofun
  doneCounts := nofun
  errorIffFault := by simp [hc]
  doneDigest := nofun
  flagPhases _ := .inr rfl

/-- Outside FAULT no error is recorded. -/
theorem StateInv.errcode_eq_none {s : State} (h : StateInv s) (hp : s.phase ≠ .fault) : s.errcode = .none :=
  not_not.mp (mt h.errorIffFault.mp hp)

/-- Outside DONE and FAULT the flag is clear. -/
theorem StateInv.az_eq_false {s : State} (h : StateInv s) (hp : ¬(s.phase = .done ∨ s.phase = .fault)) :
    s.az = false :=
  Bool.eq_false_iff.mpr (mt h.flagPhases hp)

theorem StateInv.effect {s : State} (h : StateInv s) (hl : s.phase.listens = true) (i : Instr) :
    StateInv (effect i s) := by
  have he := h.errcode_eq_none ((listens_iff _).mp hl).2
  rcases effect_cases (i := i) hl with
    ⟨-, code, hc, e⟩ | ⟨-, ⟨-, e⟩ | ⟨d, -, hp, e⟩ | ⟨n, d, -, hp, e⟩ | ⟨-, hp, e⟩⟩ <;> rw [e]
  · exact h.protocolError hc
  · exact stateInv_of_idle_absorb_closed (.inr (.inl rfl)) h.ocBound he rfl
  · exact stateInv_of_idle_absorb_closed (.inr (.inl hp)) h.ocBound he (h.az_eq_false (by simp [hp]))
  · exact stateInv_of_idle_absorb_closed (.inr (.inr rfl)) h.ocBound he (h.az_eq_false (by simp [hp]))
  · have ha := h.az_eq_false (by rcases hp with hp | hp <;> simp [hp])
    exact stateInv_of_diffuse rfl (by simp) he ha

theorem StateInv.dstep {s : State} (h : StateInv s) (hp : s.phase = .diffuse) : StateInv (dstep s) := by
  have hoc := h.diffuseCounts hp
  have he := h.errcode_eq_none (by simp [hp])
  have ha := h.az_eq_false (by simp [hp])
  rcases dstep_cases s with ⟨-, e⟩ | ⟨-, ho, e⟩ | ⟨-, ho, e⟩ <;> rw [e]
  · exact stateInv_of_diffuse hp hoc he ha
  · constructor <;> simp [ho, he]
  · have hnext : s.oc + 1#4 ≤ 7#4 := by bv_omega
    exact stateInv_of_diffuse hp hnext he ha

theorem StateInv.stepNext {s : State} (h : StateInv s) : StateInv (stepNext s) := by
  rcases stepNext_cases s with ⟨-, e⟩ | ⟨-, hp, e⟩ | ⟨-, -, e⟩ | ⟨-, -, -, e⟩ | ⟨i, -, hl, -, e⟩ | ⟨-, -, -, e⟩ <;> rw [e]
  · exact stateInv_applyReset _
  · exact (h.withInputs _).dstep hp
  · exact h.withInputs _
  · exact (h.withInputs _).protocolError nofun
  · exact (h.withInputs s.inputs.tail).effect hl i
  · exact h.withInputs _

/-- Settles O29: Reset gives the invariant outright, and each of the kinds of step keeps it. -/
theorem stepKeepsInvariant : Obligations.StepKeepsInvariant := by
  constructor
  · intro s t hr ht
    rw [eq_stepNext ht, stepNext_of_reset hr]
    exact stateInv_applyReset _
  · intro s t h ht
    rw [eq_stepNext ht]
    exact h.stepNext

end Sys2Proof.Machine
end

section
/-! Who writes each register (10_state.md R20), where a command faults (R27), and the outputs (R34 to R36). -/

namespace Sys2Proof.Machine

/-- Settles O30: the kinds of step other than Reset, each with the registers it writes. -/
theorem onlyListedWritersWrite : Obligations.OnlyListedWritersWrite := by
  intro s t ht hr
  rw [eq_stepNext ht]
  rcases stepNext_cases s with
    ⟨hr', -⟩ | ⟨-, hp, -⟩ | ⟨-, -, e⟩ | ⟨ha, hl, hd, e⟩ | ⟨i, ha, hl, hd, e⟩ | ⟨-, -, -, e⟩
  · simp [hr] at hr'
  · have hdiff : s.diffuses := ⟨hr, hp⟩
    have e := stepNext_diffuse_eq hr hp
    rcases dstep_cases s with ⟨-, e'⟩ | ⟨hic, hoc, e'⟩ | ⟨hic, -, e'⟩
    · simp [e, e', hdiff]
    · simp [e, e', hdiff, hic, hoc]
    · simp [e, e', hdiff, hic]
  · simp [e]
  · have herr : s.errs := ⟨ha, hl, .inl hd⟩
    simp [e, herr]
  · have hperf : s.performs i := ⟨ha, ((listens_iff _).mp hl).2, hd⟩
    rcases effect_cases (i := i) (s := { s with inputs := s.inputs.tail }) hl with
      ⟨hi, code, -, e'⟩ | ⟨-, ⟨rfl, e'⟩ | ⟨d, rfl, -, e'⟩ | ⟨n, d, rfl, -, e'⟩ | ⟨rfl, -, e'⟩⟩
    · have herr : s.errs := ⟨ha, hl, .inr ⟨i, hd, hi⟩⟩
      simp [e, e', herr]
    · simp [e, e', hperf]
    · have hfold : ∃ d, s.performs (.foldw d) := ⟨d, hperf⟩
      simp [e, e', hfold]
    · have hfold : ∃ n d, s.performs (.foldp n d) := ⟨n, d, hperf⟩
      simp [e, e', hfold]
    · simp [e, e', hperf]
  · simp [e]

/-- Settles O9: a protocol error is FAULT, and no command that the phase table lists leads there. -/
theorem commandFaultsExactlyWhereIllegal : Obligations.CommandFaultsExactlyWhereIllegal := by
  intro i s hd hf
  have hl := (listens_iff s.phase).mpr ⟨hd, hf⟩
  refine ⟨effect i s, by rw [exec_eq, whenHeard_of_listens _ hl], ?_⟩
  rcases effect_cases (i := i) hl with
    ⟨hi, _, -, e⟩ | ⟨hi, ⟨-, e⟩ | ⟨_, -, -, e⟩ | ⟨_, _, -, -, e⟩ | ⟨-, -, e⟩⟩
  · simp [e, hi]
  all_goals simp [e, hi, hf]

/-- Settles O23: the registers and outputs of a fixed state. -/
theorem resetValues : Obligations.ResetValues :=
  ⟨rfl, rfl, rfl, rfl, rfl, rfl⟩

/-- Settles O25: the ports by definition; in DONE no DSTEP runs, so by `onlyListedWritersWrite` nothing writes `DG`, and
without an accepted word the step is the quiet one. -/
theorem outputPorts : Obligations.OutputPorts := by
  refine ⟨by decide, ?_, ?_, ?_⟩
  · intro s
    simp [State.outputs, State.cmdReady, State.done, State.busy, State.err, State.digest, State.ambiguous]
  · intro s t hp ht hr _
    obtain ⟨-, -, -, hdg, -⟩ := onlyListedWritersWrite s t ht hr
    by_contra hne
    simp [(hdg hne).1.2] at hp
  · intro s t hp ht hr ha
    have hv : s.pins.cmdValid = false := by simpa [State.accepts, State.cmdReady, hr, hp] using ha
    rw [eq_stepNext ht, stepNext_of_quiet hr hv (by simp [hp])]
    rfl

end Sys2Proof.Machine
end

section
/-! The decoder against the encoder (30_encoding.md R66): the control byte names the command, and the data is its operand or
ignored. -/

namespace Sys2Proof

/-- The control byte FOLDP decodes from, read back. -/
theorem decodeParts_foldp (n : BitVec 3) (d : Word64) :
    decodeParts (0x30#8 ||| n.setWidth 8) d = .command (.foldp n d) := by
  have hcontrol : (0x30#8 ||| n.setWidth 8) ≠ 0x10#8 ∧ (0x30#8 ||| n.setWidth 8) ≠ 0x20#8 ∧
      (0x30#8 ||| n.setWidth 8).extractLsb' 3 5 = 0b00110#5 ∧ (0x30#8 ||| n.setWidth 8).extractLsb' 0 3 = n := by
    revert n
    decide
  obtain ⟨hinit, hfoldw, hop, hn⟩ := hcontrol
  simp only [decodeParts, if_neg hinit, if_neg hfoldw, if_pos hop, hn]

theorem decode_encode (i : Instr) : decode (encode i) = .command i := by
  rw [encode, decode_append]
  cases i with
  | init | foldw | fin => rfl
  | foldp n d => exact decodeParts_foldp n d

/-- A word has the control byte of the command it decodes to, and its data too unless the command ignores it. -/
theorem fields_of_decode {cw : CmdWord} {i : Instr} (h : decode cw = .command i) :
    controlByte cw = i.control ∧ (dataField cw = i.payload ∨ i = .init ∨ i = .fin) := by
  rcases decode_cases cw with ⟨hc, e⟩ | ⟨hc, e⟩ | ⟨n, hc, e⟩ | ⟨hc, e⟩ | e <;> rw [e] at h <;> cases h
  · exact ⟨hc, .inr (.inl rfl)⟩
  · exact ⟨hc, .inl rfl⟩
  · exact ⟨hc, .inl rfl⟩
  · exact ⟨hc, .inr (.inr rfl)⟩

/-- Only the data can tell a word from the word of the command it decodes to. -/
theorem encode_eq_iff_of_decode {cw : CmdWord} {i : Instr} (h : decode cw = .command i) :
    encode i = cw ↔ dataField cw = i.payload := by
  constructor
  · rintro rfl
    exact dataField_append _ _
  · intro hd
    rw [encode, ← hd, ← (fields_of_decode h).1, append_fields]

/-- A word that decodes to a command with an operand is the word of that command. -/
theorem encode_of_decode {cw : CmdWord} {i : Instr} (h : decode cw = .command i) (hinit : i ≠ .init)
    (hfin : i ≠ .fin) : encode i = cw :=
  (encode_eq_iff_of_decode h).mpr ((fields_of_decode h).2.resolve_right (not_or.mpr ⟨hinit, hfin⟩))

/-- The word of FOLDP as R66 writes it. -/
theorem encode_foldp_eq (n : BitVec 3) (d : Word64) :
    encode (.foldp n d) = ((0x30#72 ||| n.setWidth 72) <<< 64) ||| d.setWidth 72 := by
  have hcontrol : (0x30#8 ||| n.setWidth 8).setWidth 72 = 0x30#72 ||| n.setWidth 72 := by
    revert n
    decide
  rw [← hcontrol]
  exact append_eq_shift_or _ d

/-- FOLDP has the same effect on data that differ in ignored bytes only (30_encoding.md R59). -/
theorem Machine.exec_foldp_ignores (n : BitVec 3) {d d' : Word64}
    (h : ∀ i : Fin 8, i.val < n.toNat → byteAt d i = byteAt d' i) (s : Machine.State) :
    Machine.exec (.foldp n d) s = Machine.exec (.foldp n d') s := by
  simp only [Machine.exec_eq, Machine.effect, paddedTail_ignores n h]

/-- Settles O1: a word is its control byte and its data; a command fixes the control byte, and the data
where it has an operand. -/
theorem encodeDecodeRoundTrip : Obligations.EncodeDecodeRoundTrip := by
  refine ⟨by decide, fun d => append_eq_shift_or 0x20#8 d, encode_foldp_eq, by decide, decode_encode,
    fun _ _ h => encode_of_decode h nofun nofun, fun _ _ _ h => encode_of_decode h nofun nofun,
    fun _ => encode_eq_iff_of_decode, fun _ => encode_eq_iff_of_decode, ?_⟩
  intro cw cw' n d d' hd hd' hne hbytes
  refine ⟨fun heq => hne ?_, Machine.exec_foldp_ignores n hbytes⟩
  rw [← encode_of_decode hd nofun nofun, heq, encode_of_decode hd' nofun nofun]

end Sys2Proof
end

section
/-! The decoder against the opcode map and the illegal encodings (30_encoding.md R57, R58, R60): every verdict is one on the
control byte. -/

namespace Sys2Proof

/-- What makes a word illegal, in the terms of the decoder's own tests. -/
theorem decodeParts_eq_illegal_iff (cb : Byte) (d : Word64) : decodeParts cb d = .illegal ↔
    ¬(cb = 0x10#8 ∨ cb = 0x20#8 ∨ cb.extractLsb' 3 5 = 0b00110#5 ∨ cb = 0x40#8) := by
  unfold decodeParts
  split_ifs <;> simp [*]

/-- The decoder's test for FOLDP, as the range of its control bytes (R60). -/
theorem foldp_control_iff_range (cb : Byte) :
    cb.extractLsb' 3 5 = 0b00110#5 ↔ 0x30#8 ≤ cb ∧ cb ≤ 0x37#8 := by
  revert cb
  decide

/-- The decoder's test for FOLDP, as the match and mask of its row (R57). -/
theorem foldp_control_iff_mask (cb : Byte) : cb.extractLsb' 3 5 = 0b00110#5 ↔ cb &&& 0xf8#8 = 0x30#8 := by
  revert cb
  decide

theorem decode_append_eq_illegal_iff (cb : Byte) (d : Word64) : decode (cb ++ d) = .illegal ↔
    ¬(cb = 0x10#8 ∨ cb = 0x20#8 ∨ (0x30#8 ≤ cb ∧ cb ≤ 0x37#8) ∨ cb = 0x40#8) := by
  rw [decode_append, decodeParts_eq_illegal_iff, foldp_control_iff_range]

/-- The fields of a word, `op`, `z` and `n` taken from its control byte. -/
theorem fieldsOf_append (cb : Byte) (d : Word64) :
    fieldsOf (cb ++ d) = ⟨cb.extractLsb' 4 4, cb.extractLsb' 3 1, cb.extractLsb' 0 3, d⟩ := by
  simp only [fieldsOf, dataField_append]
  rw [BitVec.extractLsb'_append_eq_of_le (by decide), BitVec.extractLsb'_append_eq_of_le (by decide),
    BitVec.extractLsb'_append_eq_of_le (by decide)]

/-- R57 and R58 on the fields of a control byte, against the list of R60. -/
theorem wellFormed_eq_false_iff (cb : Byte) (d : Word64) :
    (CmdFields.mk (cb.extractLsb' 4 4) (cb.extractLsb' 3 1) (cb.extractLsb' 0 3) d).wellFormed = false ↔
      ¬(cb = 0x10#8 ∨ cb = 0x20#8 ∨ (0x30#8 ≤ cb ∧ cb ≤ 0x37#8) ∨ cb = 0x40#8) := by
  simp only [CmdFields.wellFormed, CmdFields.opKnown, CmdFields.zClear, CmdFields.countAllowed]
  clear d
  revert cb
  decide

theorem decode_eq_illegal_iff_fields (cw : CmdWord) : decode cw = .illegal ↔ (fieldsOf cw).wellFormed = false := by
  rw [← append_fields cw, fieldsOf_append, wellFormed_eq_false_iff, decode_append_eq_illegal_iff]

theorem rowSelect : ∀ i : Instr, Laws.RowSelect.Statement i
  | .init => Laws.RowSelect.init
  | .foldw d => Laws.RowSelect.foldw d
  | .foldp n d => Laws.RowSelect.foldp n d
  | .fin => Laws.RowSelect.fin

/-- The rows read the control byte only. -/
theorem selects_eq_of_controlByte_eq {cw cw' : CmdWord} (h : controlByte cw = controlByte cw') :
    ∀ r ∈ opcodeMap, r.selects cw = r.selects cw' := by
  rw [← append_fields cw, ← append_fields cw', h, Laws.RowSelect.opcodeMap_eq]
  simp only [List.forall_mem_cons, Laws.RowSelect.selects_append, List.not_mem_nil, false_implies,
    implies_true, and_self]

/-- Of the rows a command's word selects the one with its mnemonic, whatever the ignored data. -/
theorem selects_of_command {cw : CmdWord} {i : Instr} (h : decode cw = .command i) :
    ∀ r ∈ opcodeMap, r.selects cw = (r.mnemonic == i.mnemonic) := by
  intro r hr
  obtain ⟨-, -, -, hrows⟩ := rowSelect i
  have hcontrol : controlByte cw = controlByte (encode i) := (fields_of_decode h).1.trans (controlByte_append _ _).symm
  rw [selects_eq_of_controlByte_eq hcontrol r hr, hrows r hr]

theorem not_selects_of_illegal {cw : CmdWord} (h : decode cw = .illegal) :
    ∀ r ∈ opcodeMap, ¬r.selects cw = true := by
  rw [← append_fields cw, decode_append, decodeParts_eq_illegal_iff, foldp_control_iff_mask] at h
  rw [← append_fields cw, Laws.RowSelect.opcodeMap_eq]
  have hmask : ∀ cb : Byte, cb &&& 0xff#8 = cb := fun _ => BitVec.and_allOnes
  simpa only [List.forall_mem_cons, Laws.RowSelect.selects_append, hmask, beq_iff_eq, not_or,
    List.not_mem_nil, false_implies, implies_true, and_true] using h

theorem filter_mnemonic (i : Instr) :
    (opcodeMap.filter (·.mnemonic == i.mnemonic)).map (·.mnemonic) = [i.mnemonic] := by
  cases i <;> simp [opcodeMap, Instr.mnemonic]

/-- Settles O2: the command's row by the law of its encoding, no row for an illegal word, and the fields by R60's list. -/
theorem opcodeMapAgreesWithDecoder : Obligations.OpcodeMapAgreesWithDecoder := by
  refine ⟨fun cw => ?_, decode_eq_illegal_iff_fields, fun d => ⟨decode_append _ d, decode_append _ d⟩⟩
  cases h : decode cw with
  | command i => rw [List.filter_congr (selects_of_command h), filter_mnemonic]
  | illegal => rw [List.filter_eq_nil_iff.mpr (not_selects_of_illegal h), List.map_nil]

/-- The control bytes of the commands (R60), as numbers. -/
def legalControls : List Nat := [0x10, 0x20, 0x30, 0x31, 0x32, 0x33, 0x34, 0x35, 0x36, 0x37, 0x40]

theorem decode_append_eq_illegal_iff_not_mem (cb : Byte) (d : Word64) :
    decode (cb ++ d) = .illegal ↔ cb.toNat ∉ legalControls := by
  rw [decode_append_eq_illegal_iff]
  clear d
  revert cb
  decide

/-- Of the 256 control bytes all but those of `legalControls`. -/
theorem length_filter_illegal :
    ((List.range 256).filter fun v => decode (BitVec.ofNat 8 v ++ (0#64 : Word64)) == .illegal).length = 245 := by
  have hillegal : ∀ v ∈ List.range 256,
      (decode (BitVec.ofNat 8 v ++ (0#64 : Word64)) == .illegal) = !decide (v ∈ legalControls) := by
    intro v hv
    have hnat : (BitVec.ofNat 8 v).toNat = v := Nat.mod_eq_of_lt (List.mem_range.mp hv)
    rw [Bool.beq_eq_decide_eq, ← decide_not, decide_eq_decide, decode_append_eq_illegal_iff_not_mem, hnat]
  have hlegal : ((List.range 256).filter (· ∈ legalControls)).Perm legalControls := by
    have hbound : ∀ v ∈ legalControls, v < 256 := by decide
    refine (List.perm_ext_iff_of_nodup (List.nodup_range.filter _) (by decide)).mpr fun v => ?_
    simpa using hbound v
  have hsum := List.length_eq_length_filter_add (l := List.range 256) (· ∈ legalControls)
  rw [hlegal.length_eq, ← List.filter_congr hillegal, List.length_range] at hsum
  exact Nat.add_left_cancel hsum.symm

/-- Accepting an illegal word outside FAULT is the protocol error `ILLEGAL_CMD` and nothing else. -/
theorem Machine.step_of_illegal {s : Machine.State} (ha : s.accepts = true) (hp : s.phase ≠ .fault)
    (hd : decode s.pins.cmd = .illegal) :
    Machine.step s = .next (Machine.protocolError .illegalCmd { s with inputs := s.inputs.tail }) := by
  obtain ⟨-, -, hdiff⟩ := (Machine.accepts_iff s).mp ha
  have hl := (Machine.listens_iff s.phase).mpr ⟨hdiff, hp⟩
  rw [Machine.step_eq, Machine.stepNext_of_accepts ha]
  simp only [Machine.acceptNext, hl, hd, if_true]

/-- Settles O3: the verdict is one on the control byte, the count is that of the bytes left over, and the step is the
protocol error. -/
theorem illegalWordsRaiseIllegalCmd : Obligations.IllegalWordsRaiseIllegalCmd :=
  ⟨decode_append_eq_illegal_iff, length_filter_illegal, by decide, by decide, fun _ => Machine.step_of_illegal⟩

/-- Settles O4: the decoder computes on the six words. -/
theorem workedEncodingsDecode : Obligations.WorkedEncodingsDecode := by
  unfold Obligations.WorkedEncodingsDecode
  decide

end Sys2Proof
end

section
/-! The words of the pseudo-instructions (30_encoding.md R65): the full words and the tail of a message by their bytes, and the
commands `MSG` makes of them. -/

namespace Sys2Proof

theorem Bytes8.toList_eq_ofFn (b : Bytes8) : b.toList = List.ofFn b.get := rfl

end Sys2Proof

namespace Sys2Proof.Machine

/-- Completing a list by the default moves no element. -/
theorem getD_append_replicate {α : Type} (l : List α) (k i : Nat) (a : α) :
    (l ++ List.replicate k a).getD i a = l.getD i a := by
  rcases lt_or_ge i l.length with h | h
  · exact List.getD_append l _ a i h
  · rw [List.getD_append_right l _ a i h, List.getD_eq_default l a h, List.getD_eq_getElem?_getD,
      List.getElem?_getD_replicate_default_eq]

/-! ### The words and the tail of a message -/

theorem byteAt_be64_eq_getD (b0 b1 b2 b3 b4 b5 b6 b7 : Byte) (rest : List Byte) (i : Fin 8) :
    byteAt (be64 b0 b1 b2 b3 b4 b5 b6 b7) i =
      (b0 :: b1 :: b2 :: b3 :: b4 :: b5 :: b6 :: b7 :: rest).getD i.val 0#8 := by
  rw [byteAt_be64]
  fin_cases i <;> rfl

/-- `be64` of eight bytes has them as its bytes. -/
theorem be64List_spec {l : List Byte} (h : l.length = 8) :
    ∃ w, be64List l = some w ∧ ∀ i : Fin 8, byteAt w i = l.getD i.val 0#8 := by
  match l, h with
  | [b0, b1, b2, b3, b4, b5, b6, b7], _ => exact ⟨_, rfl, byteAt_be64_eq_getD b0 b1 b2 b3 b4 b5 b6 b7 []⟩

/-- Full word `k` of a message holds its bytes `8k` to `8k + 7`. -/
theorem splitWords_fst_spec (m : List Byte) : ∀ k < m.length / 8,
    ∃ d, (splitWords m).1[k]? = some d ∧ ∀ i : Fin 8, byteAt d i = m.getD (8 * k + i.val) 0#8 := by
  induction m using word_induction with
  | short c h => omega
  | word b0 b1 b2 b3 b4 b5 b6 b7 rest ih =>
    rintro (_ | k) hk
    · refine ⟨_, rfl, fun i => ?_⟩
      rw [Nat.mul_zero, Nat.zero_add]
      exact byteAt_be64_eq_getD b0 b1 b2 b3 b4 b5 b6 b7 rest i
    · obtain ⟨d, hd, hbytes⟩ := ih k (by simp only [List.length_cons] at hk; omega)
      refine ⟨d, hd, fun i => ?_⟩
      rw [hbytes, show 8 * (k + 1) + i.val = 8 * k + i.val + 8 by omega]
      rfl

/-- The tail is what stands behind the full words. -/
theorem splitWords_snd_eq_drop (m : List Byte) : (splitWords m).2 = m.drop (8 * (m.length / 8)) := by
  induction m using word_induction with
  | short c h => rw [splitWords_short c h, Nat.div_eq_of_lt h]; rfl
  | word b0 b1 b2 b3 b4 b5 b6 b7 rest ih =>
    have hlen : 8 * ((b0 :: b1 :: b2 :: b3 :: b4 :: b5 :: b6 :: b7 :: rest).length / 8) =
        8 * (rest.length / 8) + 8 := by simp only [List.length_cons]; omega
    rw [splitWords_cons8, ih, hlen]
    rfl

theorem splitWords_snd_getD (m : List Byte) (i : Nat) :
    (splitWords m).2.getD i 0#8 = m.getD (8 * (m.length / 8) + i) 0#8 := by
  simp only [splitWords_snd_eq_drop, List.getD_eq_getElem?_getD, List.getElem?_drop]

/-! ### The command of the tail -/

theorem tailCommands_spec {t : List Byte} (hne : t ≠ []) (h8 : t.length < 8) :
    ∃ w, tailCommands t = [.foldp (BitVec.ofNat 3 t.length) w] ∧ ∀ i : Fin 8, byteAt w i = t.getD i.val 0#8 := by
  have hlen : (t ++ List.replicate (8 - t.length) 0#8).length = 8 := by
    rw [List.length_append, List.length_replicate]
    omega
  obtain ⟨w, hw, hbytes⟩ := be64List_spec hlen
  refine ⟨w, ?_, fun i => by rw [hbytes, getD_append_replicate]⟩
  cases t with
  | nil => contradiction
  | cons b t => simp only [tailCommands, hw]

theorem tailCommands_of_dvd {m : List Byte} (h : m.length % 8 = 0) : tailCommands (splitWords m).2 = [] := by
  rw [List.eq_nil_of_length_eq_zero ((length_splitWords_snd m).trans h)]
  rfl

/-- The tail of a message is one FOLDP with the count of its bytes, and its data the tail completed by zeros. -/
theorem tailCommands_of_not_dvd {m : List Byte} (h : m.length % 8 ≠ 0) : ∃ (n : BitVec 3) (d : Word64),
    tailCommands (splitWords m).2 = [.foldp n d] ∧ n.toNat = m.length % 8 ∧
      ∀ i : Fin 8, byteAt d i = m.getD (8 * (m.length / 8) + i.val) 0#8 := by
  have hlen := length_splitWords_snd m
  have h8 : m.length % 8 < 8 := Nat.mod_lt _ (by decide)
  have hne : (splitWords m).2 ≠ [] := List.ne_nil_of_length_pos (by omega)
  obtain ⟨d, hd, hbytes⟩ := tailCommands_spec hne (by omega)
  refine ⟨_, d, hd, ?_, fun i => by rw [hbytes, splitWords_snd_getD]⟩
  rw [hlen]
  exact Nat.mod_eq_of_lt h8

theorem ignoredBytesZero_of_byteAt {n : BitVec 3} {d : Word64} (h : ∀ i : Fin 8, n.toNat ≤ i.val → byteAt d i = 0#8) :
    ignoredBytesZero n d = true := by
  rw [ignoredBytesZero, Bytes8.toList_eq_ofFn, List.all_eq_true]
  intro x hx
  obtain ⟨j, hj, rfl⟩ := List.mem_drop_iff_getElem.mp hx
  rw [List.getElem_ofFn, Bytes8.get_ofWord, h _ (Nat.le_add_right _ _)]
  rfl

/-! ### The commands of `MSG` -/

theorem msgCommands_foldw (m : List Byte) (k : Nat) (hk : k < m.length / 8) : ∃ d : Word64,
    (msgCommands m)[k]? = some (.foldw d) ∧ ∀ i : Fin 8, byteAt d i = m.getD (8 * k + i.val) 0#8 := by
  obtain ⟨d, hd, hbytes⟩ := splitWords_fst_spec m k hk
  have hlt : k < ((splitWords m).1.map Instr.foldw).length := by rwa [List.length_map, length_splitWords_fst]
  refine ⟨d, ?_, hbytes⟩
  rw [msgCommands, List.getElem?_append_left hlt, List.getElem?_map, hd, Option.map_some]

theorem msgCommands_foldp (m : List Byte) (h : m.length % 8 ≠ 0) : ∃ (n : BitVec 3) (d : Word64),
    (msgCommands m)[m.length / 8]? = some (.foldp n d) ∧ n.toNat = m.length % 8 ∧
      ∀ i : Fin 8, byteAt d i = m.getD (8 * (m.length / 8) + i.val) 0#8 := by
  obtain ⟨n, d, hd, hn, hbytes⟩ := tailCommands_of_not_dvd h
  have hlen : ((splitWords m).1.map Instr.foldw).length = m.length / 8 := by
    rw [List.length_map, length_splitWords_fst]
  refine ⟨n, d, ?_, hn, hbytes⟩
  rw [msgCommands, List.getElem?_append_right hlen.le, hlen, Nat.sub_self, hd, List.getElem?_cons_zero]

/-- The only FOLDP of a message is that of its tail, so none has the count 0. -/
theorem foldp_of_mem_msgCommands (m : List Byte) (n : BitVec 3) (d : Word64) (hmem : .foldp n d ∈ msgCommands m) :
    n ≠ 0#3 ∧ n.toNat = m.length % 8 ∧ ignoredBytesZero n d = true := by
  have htail : .foldp n d ∈ tailCommands (splitWords m).2 := by simpa [msgCommands] using hmem
  by_cases h : m.length % 8 = 0
  · simp [tailCommands_of_dvd h] at htail
  · obtain ⟨n', d', hd, hn, hbytes⟩ := tailCommands_of_not_dvd h
    rw [hd, List.mem_singleton] at htail
    cases htail
    refine ⟨?_, hn, ignoredBytesZero_of_byteAt fun i hi => ?_⟩
    · rintro rfl
      exact h hn.symm
    · rw [hbytes, List.getD_eq_default _ _ (by omega)]

theorem length_msgCommands (m : List Byte) : (msgCommands m).length = (m.length + 7) / 8 := by
  rw [msgCommands, List.length_append, List.length_map, length_splitWords_fst]
  by_cases h : m.length % 8 = 0
  · rw [tailCommands_of_dvd h, List.length_nil]
    omega
  · obtain ⟨n, d, hd, -⟩ := tailCommands_of_not_dvd h
    rw [hd, List.length_singleton]
    omega

theorem expand_hash (m : List Byte) :
    (AsmLine.hash m).expand = some (encode .init :: ((msgCommands m).map encode ++ [encode .fin])) := by
  simp only [AsmLine.expand, hashCommands, List.map_cons, List.map_append, List.map_nil]

/-- Settles O45: the words of `MSG` by the cut of the message into full words and a tail; the other lines by definition. -/
theorem pseudoInstructionsExpand : Obligations.PseudoInstructionsExpand :=
  ⟨msgCommands_foldw, msgCommands_foldp, foldp_of_mem_msgCommands, length_msgCommands, fun _ => rfl, expand_hash,
    fun _ => rfl, fun _ => rfl, by decide⟩

end Sys2Proof.Machine
end

section
/-! The padded word, and the fold of a word, of a list of words and of a chunk (40_fold.md R70 to R75, R80). -/

namespace Sys2Proof

/-- Settles O34: exclusive-or acts on each byte, and is its own inverse. -/
theorem foldActsPerByte : Obligations.FoldActsPerByte :=
  ⟨fun _ _ => rfl, byteAt_xor, foldw_foldw, fun _ => BitVec.xor_zero⟩

/-- The tail operand of FOLDP has as many bytes as its count says. -/
@[simp] theorem length_tailBytes (n : BitVec 3) (d : Word64) : (tailBytes n d).length = n.toNat := by
  have hlen : (Bytes8.ofWord d).toList.length = 8 := rfl
  rw [tailBytes, List.length_take, hlen]
  omega

theorem tailBytes_getD {n : BitVec 3} (d : Word64) (a : Byte) {i : Fin 8} (hi : i.val < n.toNat) :
    (tailBytes n d).getD i.val a = byteAt d i := by
  rw [List.getD_eq_getElem _ _ (by simpa using hi)]
  simp only [tailBytes, Bytes8.toList_eq_ofFn, List.getElem_take, List.getElem_ofFn, Fin.eta, Bytes8.get_ofWord]

end Sys2Proof

namespace Sys2Proof.Machine

/-! ### The padded word -/

theorem padword_eq_be64List {t : List Byte} (h1 : 1 ≤ t.length) (h7 : t.length ≤ 7) :
    padword t = be64List (t ++ List.replicate (8 - t.length) Config.fillByte) :=
  if_pos ⟨h1, h7⟩

theorem padword_eq_none {t : List Byte} (h : t.length = 0 ∨ 8 ≤ t.length) : padword t = none :=
  if_neg (by omega)

/-- A tail completed to eight bytes makes a word whose bytes are the tail's, or the completing byte past its end. -/
theorem be64List_completed (t : List Byte) (b : Byte) (h : t.length ≤ 8) :
    ∃ w, be64List (t ++ List.replicate (8 - t.length) b) = some w ∧ ∀ i : Fin 8, byteAt w i = t.getD i.val b := by
  have hlen : (t ++ List.replicate (8 - t.length) b).length = 8 := by
    rw [List.length_append, List.length_replicate]
    omega
  obtain ⟨w, hw, hbytes⟩ := be64List_spec hlen
  refine ⟨w, hw, fun i => ?_⟩
  have hi : i.val < (t ++ List.replicate (8 - t.length) b).length := by rw [hlen]; exact i.isLt
  rw [hbytes, ← getD_append_replicate t (8 - t.length), List.getD_eq_getElem _ _ hi, List.getD_eq_getElem _ _ hi]

theorem padword_spec {t : List Byte} (h1 : 1 ≤ t.length) (h7 : t.length ≤ 7) :
    ∃ w, padword t = some w ∧ ∀ i : Fin 8, byteAt w i = t.getD i.val Config.fillByte := by
  rw [padword_eq_be64List h1 h7]
  exact be64List_completed t _ (by omega)

/-- Settles O35: a tail of 1 to 7 bytes is completed to eight; the guard of `padword` refuses every other. -/
theorem padwordFillsWithFillBytes : Obligations.PadwordFillsWithFillBytes :=
  ⟨fun _ => padword_spec, fun _ => padword_eq_none⟩

/-- The word FOLDP folds is the padded word of the tail that its count and data hold. -/
theorem padword_eq_paddedTail {t : List Byte} {n : BitVec 3} {d : Word64} (hn : n.toNat = t.length)
    (h1 : 1 ≤ t.length) (hd : ∀ i : Fin 8, i.val < t.length → byteAt d i = t.getD i.val 0#8) :
    padword t = some (paddedTail n d) := by
  obtain ⟨w, hw, hbytes⟩ := padword_spec h1 (by omega)
  rw [hw, Option.some_inj]
  refine eq_of_byteAt fun i => ?_
  rw [hbytes, byteAt_paddedTail, hn]
  split
  case isTrue hi => rw [hd i hi, List.getD_eq_getElem _ _ hi, List.getD_eq_getElem _ _ hi]
  case isFalse hi => exact List.getD_eq_default _ _ (not_lt.mp hi)

theorem padword_tailBytes {n : BitVec 3} (hn : n ≠ 0#3) (d : Word64) :
    padword (tailBytes n d) = some (paddedTail n d) := by
  have hpos : n.toNat ≠ 0 := fun h => hn (BitVec.eq_of_toNat_eq h)
  rw [← length_tailBytes n d] at hpos
  refine padword_eq_paddedTail (length_tailBytes n d).symm (Nat.pos_of_ne_zero hpos) fun i hi => ?_
  rw [tailBytes_getD d _ (by simpa using hi)]

/-- A tail of fill bytes is padded to a word of fill bytes, whatever the count. -/
theorem paddedTail_of_fillBytes {n : BitVec 3} {d : Word64}
    (h : ∀ i : Fin 8, i.val < n.toNat → byteAt d i = 0x37#8) :
    paddedTail n d = 0x3737373737373737#64 := by
  have hfill : ∀ i : Fin 8, byteAt 0x3737373737373737#64 i = 0x37#8 := by decide
  refine eq_of_byteAt fun i => ?_
  rw [byteAt_paddedTail, hfill]
  split
  case isTrue hi => exact h i hi
  case isFalse => rfl

/-! ### Lists of words -/

@[simp] theorem foldWords_nil (st : Word64) : foldWords st [] = st := rfl

@[simp] theorem foldWords_cons (st w : Word64) (ws : List Word64) :
    foldWords st (w :: ws) = foldWords (foldw st w) ws := rfl

@[simp] theorem foldWords_append (st : Word64) (ws vs : List Word64) :
    foldWords st (ws ++ vs) = foldWords (foldWords st ws) vs := List.foldl_append

/-- The fold of words is one exclusive-or with all of them. -/
theorem foldWords_eq_xor (st : Word64) (ws : List Word64) : foldWords st ws = st ^^^ ws.foldl (· ^^^ ·) 0#64 := by
  rw [← List.foldl_assoc (op := fun v w : Word64 => v ^^^ w), BitVec.xor_zero]
  rfl

theorem foldWords_perm (st : Word64) {ws vs : List Word64} (h : ws.Perm vs) : foldWords st ws = foldWords st vs := by
  refine h.foldl_eq' (fun x _ y _ z => ?_) st
  simp only [foldw]
  rw [BitVec.xor_assoc, BitVec.xor_comm x y, ← BitVec.xor_assoc]

/-! ### Chunks -/

theorem foldChunk_final (st : Word64) (c : List Byte) : foldChunk st c true = some (foldFinalChunk st c) := rfl

theorem foldChunk_nonfinal {c : List Byte} (st : Word64) (h : c.length % 8 = 0) :
    foldChunk st c false = some (foldWords st (splitWords c).1) := if_pos h

theorem foldChunk_nonfinal_isSome_iff (st : Word64) (c : List Byte) :
    (foldChunk st c false).isSome ↔ c.length % 8 = 0 := by
  unfold foldChunk
  by_cases h : c.length % 8 = 0 <;> simp [h]

/-- A final chunk folds its full words, then the padded word of its tail, where there is one. -/
theorem foldFinalChunk_eq (st : Word64) (c : List Byte) :
    foldFinalChunk st c = foldw (foldWords st (splitWords c).1) ((padword (splitWords c).2).getD 0#64) := by
  unfold foldFinalChunk
  cases padword (splitWords c).2 with
  | some w => rfl
  | none => exact BitVec.xor_zero.symm

theorem foldFinalChunk_of_dvd {c : List Byte} (st : Word64) (h : c.length % 8 = 0) :
    foldFinalChunk st c = foldWords st (splitWords c).1 := by
  rw [foldFinalChunk_eq, padword_eq_none (.inl ((length_splitWords_snd c).trans h))]
  exact BitVec.xor_zero

theorem foldFinalChunk_of_short {t : List Byte} {w : Word64} (st : Word64) (h : t.length < 8)
    (hw : padword t = some w) :
    foldFinalChunk st t = st ^^^ w := by
  rw [foldFinalChunk_eq, splitWords_short t h, hw]
  rfl

theorem foldFinalChunk_of_eight {c : List Byte} {w : Word64} (st : Word64) (h : be64List c = some w) :
    foldFinalChunk st c = st ^^^ w := by
  unfold be64List at h
  split at h
  · cases h
    rfl
  · cases h

/-- A first part of whole words is folded as such, and the rest from what it leaves. -/
theorem foldFinalChunk_append {a : List Byte} (st : Word64) (b : List Byte) (h : a.length % 8 = 0) :
    foldFinalChunk st (a ++ b) = foldFinalChunk (foldWords st (splitWords a).1) b := by
  simp only [foldFinalChunk_eq, splitWords_append a b h, foldWords_append]

theorem foldChunk_cons8 (st : Word64) (b0 b1 b2 b3 b4 b5 b6 b7 : Byte) (rest : List Byte) (final : Bool) :
    foldChunk st (b0 :: b1 :: b2 :: b3 :: b4 :: b5 :: b6 :: b7 :: rest) final =
      foldChunk (st ^^^ be64 b0 b1 b2 b3 b4 b5 b6 b7) rest final := by
  cases final with
  | true => rfl
  | false =>
    simp only [foldChunk, List.length_cons, Nat.add_assoc, Nat.reduceAdd, Nat.add_mod_right]
    rfl

theorem foldChunk_tail {t : List Byte} (st : Word64) (h1 : 1 ≤ t.length) (h7 : t.length ≤ 7) :
    foldChunk st t true = (padword t).map (st ^^^ ·) := by
  obtain ⟨w, hw, -⟩ := padword_spec h1 h7
  rw [foldChunk_final, foldFinalChunk_of_short st (by omega) hw, hw, Option.map_some]

/-- Settles O36: the cut into words and the padded word of the tail, case by case. -/
theorem foldChunkContract : Obligations.FoldChunkContract := by
  refine ⟨foldChunk_nonfinal_isSome_iff, fun _ _ => rfl, fun st c h => ?_, fun st final => ?_, foldChunk_cons8,
    fun st _ => foldChunk_tail st⟩
  · rw [foldChunk_final, foldChunk_nonfinal st h, foldFinalChunk_of_dvd st h]
  · cases final <;> rfl

/-- Settles O37, by induction on the chunks before the last. -/
theorem chunkBoundariesAreInvisible : Obligations.ChunkBoundariesAreInvisible := by
  intro st cs c
  induction cs generalizing st with
  | nil => exact fun _ => rfl
  | cons x xs ih =>
    intro h
    obtain ⟨hx, hxs⟩ := List.forall_mem_cons.mp h
    rw [List.foldl_cons, Option.bind_some, foldChunk_nonfinal st hx, ih _ hxs, List.flatten_cons, List.append_assoc,
      foldChunk_final, foldChunk_final, foldFinalChunk_append st _ hx]

/-! ### Properties of the fold (40_fold.md R80) -/

theorem foldChunk_replicate_zero (st : Word64) (k : Nat) :
    foldChunk st (List.replicate (8 * k) 0#8) true = some st := by
  induction k with
  | zero => rfl
  | succ k ih =>
    have hzero : be64 0#8 0#8 0#8 0#8 0#8 0#8 0#8 0#8 = 0#64 := by decide
    refine (foldChunk_cons8 st 0#8 0#8 0#8 0#8 0#8 0#8 0#8 0#8 (List.replicate (8 * k) 0#8) true).trans ?_
    rw [hzero, BitVec.xor_zero, ih]

/-- A tail folds as the tail completed by fill bytes, and completed by zeros it folds to something else. -/
theorem foldChunk_tail_padding {t : List Byte} (st : Word64) (h1 : 1 ≤ t.length) (h7 : t.length ≤ 7) :
    foldChunk st t true = foldChunk st (t ++ List.replicate (8 - t.length) 0x37#8) true ∧
    ∃ v z : Word64, foldChunk st t true = some v ∧
      foldChunk st (t ++ List.replicate (8 - t.length) 0#8) true = some z ∧
      ∀ i : Fin 8, t.length ≤ i.val → byteAt v i ≠ byteAt z i := by
  obtain ⟨w, hw, hwbytes⟩ := padword_spec h1 h7
  obtain ⟨w0, hw0, hw0bytes⟩ := be64List_completed t 0#8 (by omega)
  have hv : foldChunk st t true = some (st ^^^ w) := by rw [foldChunk_tail st h1 h7, hw, Option.map_some]
  refine ⟨?_, _, _, hv, congrArg some (foldFinalChunk_of_eight st hw0), fun i hi => ?_⟩
  · rw [padword_eq_be64List h1 h7] at hw
    exact hv.trans (congrArg some (foldFinalChunk_of_eight st hw).symm)
  · rw [byteAt_xor, byteAt_xor, hwbytes, hw0bytes, List.getD_eq_default _ _ hi, List.getD_eq_default _ _ hi, ne_eq,
      BitVec.xor_right_inj]
    decide

/-- Every value is the fold of the eight bytes that tell it from the seed. -/
theorem foldMsg_surjective (v : Word64) : foldMsg (Bytes8.ofWord (v ^^^ Config.initialState)).toList = v := by
  have hfold : foldMsg (Bytes8.ofWord (v ^^^ Config.initialState)).toList =
      Config.initialState ^^^ (Bytes8.ofWord (v ^^^ Config.initialState)).toWord := rfl
  rw [hfold, Bytes8.toWord_ofWord, BitVec.xor_comm v, ← BitVec.xor_assoc, BitVec.xor_self, BitVec.zero_xor]

/-- Settles O38: the laws of exclusive-or on words, and of the tail by its completed words. -/
theorem foldProperties : Obligations.FoldProperties :=
  ⟨fun k => Option.some_inj.mp (foldChunk_replicate_zero _ k), fun st _ => foldChunk_tail_padding st,
    fun st _ _ => foldWords_perm st, foldw_foldw, foldMsg_surjective⟩

end Sys2Proof.Machine
end

section
/-! FOLDW and FOLDP in every phase (40_fold.md R76, R77). -/

namespace Sys2Proof.Machine

theorem exec_of_listens {s : State} (h : s.phase.listens = true) (i : Instr) : exec i s = .next (effect i s) := by
  rw [exec_eq, whenHeard_of_listens _ h]

theorem exec_of_fault {s : State} (h : s.phase = .fault) (i : Instr) : exec i s = .next s := by
  rw [exec_eq, whenHeard_of_deaf _ (by rw [h]; rfl)]

theorem accepts_of_diffuse {s : State} (h : s.phase = .diffuse) : s.accepts = false :=
  Bool.eq_false_iff.mpr fun ha => ((accepts_iff s).mp ha).2.2 h

theorem listens_of_idle_closed_done {s : State} (h : s.phase = .idle ∨ s.phase = .closed ∨ s.phase = .done) :
    s.phase.listens = true ∧ s.phase ≠ .absorb := by
  rcases h with h | h | h <;> rw [h] <;> decide

theorem exec_foldw_absorb {s : State} (h : s.phase = .absorb) (d : Word64) :
    exec (.foldw d) s = .next { s with st := s.st ^^^ d } := by
  rw [exec_of_listens (by rw [h]; rfl), effect, if_pos h]
  rfl

theorem exec_foldw_seqFold (d : Word64) {s : State} (h : s.phase = .idle ∨ s.phase = .closed ∨ s.phase = .done) :
    exec (.foldw d) s = .next (protocolError .seqFold s) := by
  obtain ⟨hl, hp⟩ := listens_of_idle_closed_done h
  rw [exec_of_listens hl, effect, if_neg hp]

theorem exec_foldp_absorb {s : State} (h : s.phase = .absorb) {n : BitVec 3} (hn : n ≠ 0#3) (d : Word64) :
    exec (.foldp n d) s = .next { s with st := s.st ^^^ paddedTail n d, phase := .closed } := by
  rw [exec_of_listens (by rw [h]; rfl), effect, if_pos h, if_neg hn]
  rfl

theorem exec_foldp_zero_absorb {s : State} (h : s.phase = .absorb) (d : Word64) :
    exec (.foldp 0#3 d) s = .next { s with phase := .closed } := by
  rw [exec_of_listens (by rw [h]; rfl), effect, if_pos h, if_pos rfl]

theorem exec_foldp_seqFold (n : BitVec 3) (d : Word64) {s : State}
    (h : s.phase = .idle ∨ s.phase = .closed ∨ s.phase = .done) :
    exec (.foldp n d) s = .next (protocolError .seqFold s) := by
  obtain ⟨hl, hp⟩ := listens_of_idle_closed_done h
  rw [exec_of_listens hl, effect, if_neg hp]

/-- Settles O6: in ABSORB one exclusive-or on `ST`, whose laws give the corner cases. -/
theorem foldwXorsOneWord : Obligations.FoldwXorsOneWord := by
  refine ⟨fun d _ hp => exec_foldw_absorb hp d, fun d _ => exec_foldw_seqFold d, fun d _ hp => exec_of_fault hp _,
    fun _ => accepts_of_diffuse, fun d => decode_append _ d, ?_, ?_, ?_, ?_⟩
  · intro s hp
    rw [exec_foldw_absorb hp, BitVec.xor_zero]
  · intro s hp
    rw [exec_foldw_absorb hp, BitVec.xor_self]
  · intro d s t hp ht
    rw [exec_foldw_absorb hp] at ht
    cases ht
    rw [exec_foldw_absorb (s := { s with st := s.st ^^^ d }) hp, BitVec.xor_assoc, BitVec.xor_self, BitVec.xor_zero]
  · intro s hp hst
    rw [exec_foldw_absorb hp, hst]
    rfl

theorem legalIn_closed_iff (i : Instr) : legalIn .closed i = true ↔ i = .init ∨ i = .fin := by
  cases i <;> simp [legalIn]

/-- After the stream is closed, only INIT and FIN are no error. -/
theorem exec_closed_ne_fault_iff {i : Instr} {s t : State} (hp : s.phase = .closed) (ht : exec i s = .next t) :
    t.phase ≠ .fault ↔ i = .init ∨ i = .fin := by
  obtain ⟨t', ht', hfault⟩ := commandFaultsExactlyWhereIllegal i s (by simp [hp]) (by simp [hp])
  cases ht.symm.trans ht'
  rw [ne_eq, hfault, hp, Bool.not_eq_false, legalIn_closed_iff]

/-- Settles O7: in ABSORB one exclusive-or with the padded tail, where there is one, and the stream is closed. -/
theorem foldpFoldsPaddedTailAndCloses : Obligations.FoldpFoldsPaddedTailAndCloses := by
  refine ⟨?_, fun d _ hp => exec_foldp_zero_absorb hp d, fun n d _ => exec_foldp_seqFold n d,
    fun _ _ _ hp => exec_of_fault hp _, fun _ => accepts_of_diffuse,
    fun n d => (decode_append _ d).trans (decodeParts_foldp n d), fun n _ _ h s => exec_foldp_ignores n h s,
    ?_, ?_, fun _ _ _ => exec_closed_ne_fault_iff⟩
  · intro n d s hp hn
    refine ⟨paddedTail n d, padword_tailBytes hn d, exec_foldp_absorb hp hn d, fun i => ?_⟩
    rw [byteAt_xor, byteAt_paddedTail]
    rfl
  · intro n d s hp hn hd
    rw [exec_foldp_absorb hp hn, paddedTail_of_fillBytes hd]
  · intro s hp hst
    have htail : paddedTail 5#3 0x726c642121000000#64 = 0x726c642121373737#64 := by decide
    have hn : 5#3 ≠ 0#3 := by decide
    rw [padword_tailBytes hn, exec_foldp_absorb hp hn, htail, hst]
    exact ⟨rfl, rfl⟩

end Sys2Proof.Machine
end

section
/-! The command sequence `MSG` (40_fold.md R81): the run of its FOLDWs, then of the FOLDP of its tail, where there is one. -/

namespace Sys2Proof.Machine

/-- A listening block performs the command on the port. -/
theorem stepNext_of_presented {s : State} {i : Instr} {rest : List PortSample} (hl : s.phase.listens = true)
    (hin : s.inputs = .present (encode i) :: rest) : stepNext s = effect i { s with inputs := rest } := by
  have hpins : s.pins = .present (encode i) := by rw [State.pins, hin]
  have ha : s.accepts = true :=
    (accepts_iff s).mpr ⟨by rw [hpins]; rfl, by rw [hpins]; rfl, ((listens_iff _).mp hl).1⟩
  have hcmd : s.pins.cmd = encode i := by rw [hpins]; rfl
  rw [stepNext_of_accepts ha, hcmd, acceptNext, if_pos hl, decode_encode, hin]
  rfl

/-- A run of FOLDWs from ABSORB folds their words. -/
theorem iterate_stepNext_foldw (ws : List Word64) {s : State} {rest : List PortSample} (hp : s.phase = .absorb)
    (hin : s.inputs = presentAll ((ws.map Instr.foldw).map encode) ++ rest) :
    stepNext^[ws.length] s = { s with st := foldWords s.st ws, inputs := rest } := by
  induction ws generalizing s with
  | nil => exact congrArg (fun l => { s with inputs := l }) hin
  | cons w ws ih =>
    have hstep := (stepNext_of_presented (by rw [hp]; rfl) hin).trans (if_pos hp)
    rw [List.length_cons, Function.iterate_succ_apply, hstep]
    exact ih hp rfl

/-- The FOLDP of a tail folds its padded word. -/
theorem tailCommands_eq_paddedTail {t : List Byte} (h1 : 1 ≤ t.length) (h7 : t.length ≤ 7) :
    ∃ (n : BitVec 3) (d : Word64), n ≠ 0#3 ∧ tailCommands t = [.foldp n d] ∧ padword t = some (paddedTail n d) := by
  obtain ⟨d, hd, hbytes⟩ := tailCommands_spec (List.ne_nil_of_length_pos h1) (by omega)
  have hn : (BitVec.ofNat 3 t.length).toNat = t.length := Nat.mod_eq_of_lt (by omega)
  refine ⟨_, d, ?_, hd, padword_eq_paddedTail hn h1 fun i _ => hbytes i⟩
  intro h0
  rw [h0] at hn
  exact absurd hn.symm (Nat.ne_of_gt h1)

/-- From ABSORB the words of `MSG m` leave the fold of `m` as a final chunk in `ST`; a tail closes the stream. -/
theorem iterate_stepNext_msgCommands (m : List Byte) {s : State} {rest : List PortSample} (hp : s.phase = .absorb)
    (hin : s.inputs = presentAll ((msgCommands m).map encode) ++ rest) :
    stepNext^[(msgCommands m).length] s = { s with
      st := foldFinalChunk s.st m, phase := if m.length % 8 = 0 then .absorb else .closed, inputs := rest } := by
  have hwords : stepNext^[(splitWords m).1.length] s = { s with
      st := foldWords s.st (splitWords m).1
      inputs := presentAll ((tailCommands (splitWords m).2).map encode) ++ rest } := by
    refine iterate_stepNext_foldw _ hp (hin.trans ?_)
    simp only [msgCommands, presentAll, List.map_append, List.append_assoc]
  rw [msgCommands, List.length_append, List.length_map, Nat.add_comm, Function.iterate_add_apply, hwords]
  by_cases h : m.length % 8 = 0
  · rw [tailCommands_of_dvd h, foldFinalChunk_of_dvd _ h, if_pos h, ← hp]
    rfl
  · have hlen := length_splitWords_snd m
    obtain ⟨n, d, hn, htail, hpad⟩ := tailCommands_eq_paddedTail (t := (splitWords m).2) (by omega) (by omega)
    rw [htail, List.length_singleton, Function.iterate_one,
      stepNext_of_presented (i := .foldp n d) (rest := rest) (by rw [hp]; rfl) rfl, effect, if_pos hp, if_neg hn,
      foldFinalChunk_eq, hpad, if_neg h]
    rfl

/-- The fold of a message as one exclusive-or. -/
theorem foldMsg_eq_xor (m : List Byte) : foldMsg m =
    Config.initialState ^^^ (splitWords m).1.foldl (· ^^^ ·) 0#64 ^^^ (padword (splitWords m).2).getD 0#64 := by
  rw [foldMsg, foldFinalChunk_eq, foldWords_eq_xor, foldw]

/-- Settles O39: the fold is one exclusive-or, and the run of `MSG` computes it word by word. -/
theorem msgSequenceFoldsTheMessage : Obligations.MsgSequenceFoldsTheMessage := by
  refine ⟨fun m => ⟨rfl, foldMsg_eq_xor m⟩, fun m s rest hp hin => ⟨_, foldFinalChunk s.st m, ?_, rfl, rfl⟩⟩
  rw [runSteps_eq, iterate_stepNext_msgCommands m hp hin]

end Sys2Proof.Machine
end

section
/-! The bytes of the Diffuser's buffers, index by index (41_diffuse.md R87 to R90), and the palindrome (R96). -/

namespace Sys2Proof.Machine

theorem get_shiftIn (b : Bytes8) (k : Fin 8) :
    (shiftIn b).get k = if k = 7 then feedback b else b.get (k + 1) := by
  fin_cases k <;> rfl

theorem get_mirrorAdd (d : Bytes8) (k : Fin 8) : (mirrorAdd d).get k = d.get k + d.get (7 - k) := by
  fin_cases k <;> rfl

theorem get_maskSrc (b : Bytes8) (k : Fin 8) :
    (maskSrc b).get k = if k.val % 2 = 0 then b.get k ^^^ 0xff#8 else b.get k := by
  fin_cases k <;> rfl

theorem get_maskDst (b : Bytes8) (k : Fin 8) :
    (maskDst b).get k = if k.val % 2 = 0 then b.get k else b.get k ^^^ 0xff#8 := by
  fin_cases k <;> rfl

/-- Of the positions `k` and `7 - k` the mask complements exactly one. -/
theorem get_maskSrc_mirrorAdd (d : Bytes8) (k : Fin 8) :
    (maskSrc (mirrorAdd d)).get k = (maskSrc (mirrorAdd d)).get (7 - k) ^^^ 0xff#8 := by
  have hparity : (7 - k).val % 2 = 0 ↔ ¬k.val % 2 = 0 := by omega
  rw [get_maskSrc, get_maskSrc, ← mirrorAdd_palindrome]
  by_cases hk : k.val % 2 = 0
  · rw [if_pos hk, if_neg (mt hparity.mp (not_not.mpr hk))]
  · rw [if_neg hk, if_pos (hparity.mpr hk), BitVec.xor_assoc, BitVec.xor_self, BitVec.xor_zero]

/-- The outer bytes of an inner step see the first two bytes of the buffer through one byte only (R98). -/
theorem get_mirrorAdd_shiftIn_zero (b : Bytes8) : (mirrorAdd (shiftIn b)).get 0 =
    b.get 1 + (b.get 0 ^^^ b.get 1 ^^^ (b.get 2 ^^^ b.get 3 ^^^ b.get 4 ^^^ b.get 5 ^^^ b.get 6 ^^^ b.get 7)) := by
  rw [get_mirrorAdd]
  show b.get 1 + (_ ^^^ _ ^^^ _ ^^^ _ ^^^ _ ^^^ _ ^^^ _ ^^^ _) = _
  simp only [BitVec.xor_assoc]
  rfl

/-- The inner bytes of an inner step do not involve the first two bytes of the buffer (R98). -/
theorem get_mirrorAdd_shiftIn_middle (b : Bytes8) {k : Fin 8} (h1 : 1 ≤ k.val) (h6 : k.val ≤ 6) :
    (mirrorAdd (shiftIn b)).get k = b.get (k + 1) + b.get (0 - k) := by
  have hk : k ≠ 7 := by omega
  have hmirror : 7 - k ≠ 7 := by omega
  have hnext : 7 - k + 1 = 0 - k := by omega
  rw [get_mirrorAdd, get_shiftIn, get_shiftIn, if_neg hk, if_neg hmirror, hnext]

end Sys2Proof.Machine
end

section
/-! The transform as a function (41_diffuse.md R93): what its first step reads of the state and the
shape its last mask gives. -/

namespace Sys2Proof.Machine

/-- The inner steps never read `dst`. -/
theorem Buffers.inners_of_src_eq (k : Nat) {b c : Buffers} (h : b.src = c.src) :
    Buffers.inners (k + 1) b = Buffers.inners (k + 1) c := by
  simp only [Buffers.inners, Buffers.inner, h]

/-- An outer round reads of its buffers only what the first inner step makes of `src`. -/
theorem Buffers.round_of_inner_src_eq {b c : Buffers} (h : b.inner.src = c.inner.src) : b.round = c.round := by
  have hinners : Buffers.inners Config.innerRounds b = Buffers.inners Config.innerRounds c :=
    Buffers.inners_of_src_eq 6 h
  simp only [Buffers.round, hinners]

/-- Nor do the outer rounds read `dst`. -/
theorem Buffers.rounds_of_src_eq (k : Nat) {b c : Buffers} (h : b.src = c.src) :
    Buffers.rounds (k + 1) b = Buffers.rounds (k + 1) c :=
  congrArg (Buffers.rounds k) (Buffers.round_of_inner_src_eq (by simp only [Buffers.inner, h]))

/-- The final buffers, whatever `dst` held at the start. -/
theorem rounds_eq_diffuseBuffers (v : Word64) (d : Bytes8) : Buffers.rounds 8 ⟨.ofWord v, d⟩ = diffuseBuffers v :=
  Buffers.rounds_of_src_eq 7 rfl

theorem diffuse_eq_of_first_step {v w : Word64}
    (h : mirrorAdd (shiftIn (.ofWord v)) = mirrorAdd (shiftIn (.ofWord w))) : diffuse v = diffuse w := by
  have hround : Buffers.round ⟨.ofWord v, .ofWord v⟩ = Buffers.round ⟨.ofWord w, .ofWord w⟩ :=
    Buffers.round_of_inner_src_eq h
  exact congrArg (fun b => (Buffers.rounds 7 b).src.toWord) hround

/-- Every digest is a mirror sum under the mask: the last inner step of the last round, and its mask. -/
theorem exists_diffuse_eq (v : Word64) : ∃ d, diffuse v = (maskSrc (mirrorAdd d)).toWord := by
  rw [diffuse, diffuseBuffers, Config.outerRounds, Buffers.rounds_succ, Buffers.round, Config.innerRounds,
    Buffers.inners_succ]
  exact ⟨_, rfl⟩

theorem byteAt_diffuse_mirror (v : Word64) (k : Fin 8) :
    byteAt (diffuse v) (7 - k) = byteAt (diffuse v) k ^^^ 0xff#8 := by
  obtain ⟨d, hd⟩ := exists_diffuse_eq v
  rw [hd, byteAt_toWord, byteAt_toWord, get_maskSrc_mirrorAdd d k, BitVec.xor_assoc, BitVec.xor_self, BitVec.xor_zero]

/-- The first four bytes are bytes of the upper half. -/
theorem byteAt_eq_extractLsb'_upper (v : Word64) {i : Fin 8} (hi : i.val ≤ 3) :
    byteAt v i = (v.extractLsb' 32 32).extractLsb' (24 - 8 * i.val) 8 := by
  apply BitVec.eq_of_getLsbD_eq
  intro j hj
  have hj32 : 24 - 8 * i.val + j < 32 := by omega
  simp only [getLsbD_byteAt, BitVec.getLsbD_extractLsb', hj, hj32, decide_true, Bool.true_and]
  congr 1
  omega

/-- The upper half of a digest determines it, the lower half being its complement in reverse. -/
theorem diffuse_eq_of_upper_eq {v w : Word64} (h : (diffuse v).extractLsb' 32 32 = (diffuse w).extractLsb' 32 32) :
    diffuse v = diffuse w := by
  have hupper : ∀ i : Fin 8, i.val ≤ 3 → byteAt (diffuse v) i = byteAt (diffuse w) i := by
    intro i hi
    rw [byteAt_eq_extractLsb'_upper _ hi, byteAt_eq_extractLsb'_upper _ hi, h]
  apply eq_of_byteAt
  intro i
  by_cases hi : i.val ≤ 3
  · exact hupper i hi
  · have hv := byteAt_diffuse_mirror v (7 - i)
    have hw := byteAt_diffuse_mirror w (7 - i)
    rw [sub_sub_cancel] at hv hw
    rw [hv, hw, hupper (7 - i) (by omega)]

/-- What the first inner step does not tell apart has one digest (R98). -/
theorem diffuse_eq_of_first_bytes {v w : Word64} (htail : ∀ i : Fin 8, 2 ≤ i.val → byteAt v i = byteAt w i)
    (hfirst : (mirrorAdd (shiftIn (.ofWord v))).get 0 = (mirrorAdd (shiftIn (.ofWord w))).get 0) :
    diffuse v = diffuse w := by
  apply diffuse_eq_of_first_step
  apply Bytes8.ext_get
  intro k
  by_cases h0 : k = 0
  · rw [h0]
    exact hfirst
  by_cases h7 : k = 7
  · rw [h7, mirrorAdd_palindrome, mirrorAdd_palindrome (shiftIn (.ofWord w))]
    exact hfirst
  · have h1 : 1 ≤ k.val := by omega
    have h6 : k.val ≤ 6 := by omega
    rw [get_mirrorAdd_shiftIn_middle _ h1 h6, get_mirrorAdd_shiftIn_middle _ h1 h6]
    simp only [Bytes8.get_ofWord]
    rw [htail (k + 1) (by omega), htail (0 - k) (by omega)]

/-- The top bits of two summands may be flipped together: the two changes of 128 make 256. -/
theorem flip_top_add_flip_top (a b : Byte) : (a ^^^ 0x80#8) + (b ^^^ 0x80#8) = a + b := by
  have hflip : ∀ c : Byte, c ^^^ 0x80#8 = c + 0x80#8 := by decide
  rw [hflip, hflip]
  bv_omega

theorem xor_flip_right_comm (a b c x : Byte) : a ^^^ (b ^^^ c) ^^^ x = a ^^^ b ^^^ x ^^^ c := by
  ac_rfl

theorem byteAt_bit55 (i : Fin 8) : byteAt 0x0080000000000000#64 i = if i = 1 then 0x80#8 else 0#8 := by
  revert i
  decide

/-- Bit 55 is the top bit of byte 1, which is a summand of the one byte and a term of the exclusive-or it is added to. -/
theorem diffuse_flip_bit55 (v : Word64) : diffuse v = diffuse (v ^^^ 0x0080000000000000#64) := by
  have hbyte : ∀ i : Fin 8, i ≠ 1 → byteAt (v ^^^ 0x0080000000000000#64) i = byteAt v i := by
    intro i hi
    rw [byteAt_xor, byteAt_bit55, if_neg hi, BitVec.xor_zero]
  have hone : byteAt (v ^^^ 0x0080000000000000#64) 1 = byteAt v 1 ^^^ 0x80#8 := by
    rw [byteAt_xor, byteAt_bit55, if_pos rfl]
  apply diffuse_eq_of_first_bytes
  · intro i hi
    exact (hbyte i (by omega)).symm
  · rw [get_mirrorAdd_shiftIn_zero, get_mirrorAdd_shiftIn_zero]
    simp (disch := decide) only [Bytes8.get_ofWord, hone, hbyte]
    rw [xor_flip_right_comm, flip_top_add_flip_top]

/-- Settles O14: every digest is a palindrome under the mask; the collision flips bit 55. -/
theorem digestMirrorsItself : Obligations.DigestMirrorsItself :=
  ⟨fun v k _ => byteAt_diffuse_mirror v k, fun _ _ => diffuse_eq_of_upper_eq,
    0#64, 0#64 ^^^ 0x0080000000000000#64, by decide, diffuse_flip_bit55 0#64⟩

/-- Settles O15: the bytes of the first inner step, on which alone the digest depends. -/
theorem digestBlindToFirstBytes : Obligations.DigestBlindToFirstBytes := by
  refine ⟨?_, ?_, diffuse_flip_bit55⟩
  · intro s t hr hp _ hic ht
    rw [eq_stepNext ht, stepNext_of_diffuse hr hp, dstep, if_pos (by simp [hic]), innerPass_src]
    exact ⟨get_mirrorAdd_shiftIn_zero _, mirrorAdd_palindrome _ 7, fun k => get_mirrorAdd_shiftIn_middle _⟩
  · intro v w htail hfirst
    apply diffuse_eq_of_first_bytes htail
    rw [get_mirrorAdd_shiftIn_zero, get_mirrorAdd_shiftIn_zero]
    simp only [Bytes8.get_ofWord, hfirst]
    simp (disch := decide) only [htail]

/-- Settles O16: the source's one vector, computed. -/
theorem digestIsFinalSrc : Obligations.DigestIsFinalSrc := by
  unfold Obligations.DigestIsFinalSrc
  decide +kernel

end Sys2Proof.Machine
end

section
/-! Runs of DSTEPs (41_diffuse.md R92, R95): the count of micro-steps, the registers of a run of the block, and the transform
it computes. -/

namespace Sys2Proof.Machine

theorem pins_rst_of_noResetAhead {s : State} (h : s.noResetAhead = true) : s.pins.rst = false := by
  unfold State.noResetAhead at h
  unfold State.pins
  cases hin : s.inputs with
  | nil => rfl
  | cons e l => simp_all

/-- The host's samples after a step are some of those before it. -/
theorem noResetAhead_advanceInputs {s : State} (h : s.noResetAhead = true) : s.advanceInputs.noResetAhead = true := by
  simp only [State.noResetAhead, State.advanceInputs_inputs, List.all_eq_true] at h ⊢
  split
  · exact h
  · exact fun e he => h e (List.mem_of_mem_tail he)

/-- A DSTEP before the 64th counts one and goes on. -/
theorem dstep_of_stepsDone_lt {s : State} (h : s.stepsDone < 63) :
    (dstep s).phase = s.phase ∧ (dstep s).stepsDone = s.stepsDone + 1 := by
  unfold State.stepsDone at h ⊢
  rcases dstep_cases s with ⟨hic, e⟩ | ⟨hic, hoc, -⟩ | ⟨hic, hoc, e⟩
  · refine ⟨by rw [e, innerPass_phase], ?_⟩
    rw [e, innerPass_oc, innerPass_ic]
    bv_omega
  · simp [hic, hoc] at h
  · refine ⟨by rw [e, lastPass_phase], ?_⟩
    rw [e, lastPass_oc, lastPass_ic]
    bv_omega

/-- The 64th DSTEP completes. -/
theorem dstep_phase_of_stepsDone_eq {s : State} (h : s.stepsDone = 63) : (dstep s).phase = .done := by
  unfold State.stepsDone at h
  rcases dstep_cases s with ⟨hic, -⟩ | ⟨-, -, e⟩ | ⟨hic, hoc, -⟩
  · bv_omega
  · rw [e, complete_phase]
  · bv_omega

theorem iterate_dstep_counts {k : Nat} {s : State} (h : s.stepsDone + k < 64) :
    (dstep^[k] s).phase = s.phase ∧ (dstep^[k] s).stepsDone = s.stepsDone + k := by
  induction k with
  | zero => exact ⟨rfl, rfl⟩
  | succ k ih =>
    obtain ⟨hphase, hsteps⟩ := ih (by omega)
    obtain ⟨hphase', hsteps'⟩ := dstep_of_stepsDone_lt (s := dstep^[k] s) (by omega)
    rw [Function.iterate_succ_apply']
    exact ⟨hphase'.trans hphase, by omega⟩

/-- Until the diffusion ends, without a reset ahead, the block's steps are DSTEPs on the registers. -/
theorem iterate_stepNext_diffuse {k : Nat} {s : State} (hn : s.noResetAhead = true) (hp : s.phase = .diffuse)
    (hk : s.stepsDone + k ≤ 64) : (stepNext^[k] s).noResetAhead = true ∧
      stepNext^[k] s = { dstep^[k] s with inputs := (stepNext^[k] s).inputs } := by
  induction k with
  | zero => exact ⟨hn, rfl⟩
  | succ k ih =>
    obtain ⟨hn', hu⟩ := ih (by omega)
    have hp' : (stepNext^[k] s).phase = .diffuse := by
      rw [hu, ← hp]
      exact (iterate_dstep_counts (by omega)).1
    have hstep := stepNext_diffuse_eq (pins_rst_of_noResetAhead hn') hp'
    simp only [Function.iterate_succ_apply']
    refine ⟨?_, ?_⟩
    · rw [hstep]
      exact noResetAhead_advanceInputs hn'
    · have hd : dstep (stepNext^[k] s) = { dstep (dstep^[k] s) with inputs := (stepNext^[k] s).inputs } :=
        (congrArg dstep hu).trans (dstep_withInputs _ _)
      rw [hstep, hd]

/-- The DSTEPs of the first `o ≤ 7` rounds are `o` outer rounds. -/
theorem dstep_rounds {o : Nat} (ho : o ≤ 7) {s : State} (hic : s.ic = 0#3) (hoc : s.oc = 0#4) :
    dstep^[8 * o] s = { s with
      src := (Buffers.rounds o ⟨s.src, s.dst⟩).src
      dst := (Buffers.rounds o ⟨s.src, s.dst⟩).dst
      oc := BitVec.ofNat 4 o } := by
  induction o with
  | zero => simp [Buffers.rounds, ← hoc]
  | succ o ih =>
    have hne : BitVec.ofNat 4 o ≠ 7#4 := by bv_omega
    rw [Nat.mul_succ, Nat.add_comm, Function.iterate_add_apply, ih (by omega), dstep_round,
      Buffers.rounds_succ, BitVec.ofNat_add, ← hic]
    · exact hic
    · exact hne

/-- The 64 DSTEPs from the start are the eight outer rounds, and completion. -/
theorem dstep_all_rounds {s : State} (hic : s.ic = 0#3) (hoc : s.oc = 0#4) :
    dstep^[64] s = complete { s with
      src := (Buffers.rounds 8 ⟨s.src, s.dst⟩).src
      dst := (Buffers.rounds 8 ⟨s.src, s.dst⟩).dst
      ic := 0#3
      oc := 8#4 } := by
  rw [Function.iterate_add_apply dstep 8 (8 * 7), dstep_rounds (by omega) hic hoc, dstep_last_round,
    Buffers.rounds_succ 7]
  · exact hic
  · rfl

theorem effect_fin {s : State} (hp : s.phase = .absorb ∨ s.phase = .closed) :
    effect .fin s = { s with src := .ofWord s.st, oc := 0#4, ic := 0#3, phase := .diffuse } :=
  if_pos hp

theorem listens_of_absorb_closed {s : State} (hp : s.phase = .absorb ∨ s.phase = .closed) :
    s.phase.listens = true := by
  rcases hp with hp | hp <;> rw [hp] <;> rfl

/-- An accepted FIN starts the diffusion at its first micro-step. -/
theorem diffuse_of_exec_fin {s t : State} (hp : s.phase = .absorb ∨ s.phase = .closed) (ht : exec .fin s = .next t) :
    t.phase = .diffuse ∧ t.stepsDone = 0 ∧ t.noResetAhead = s.noResetAhead := by
  rw [exec_of_listens (listens_of_absorb_closed hp), effect_fin hp] at ht
  cases ht
  exact ⟨rfl, rfl, rfl⟩

/-- Settles O12: the block's steps after FIN are DSTEPs, 64 of them are the eight rounds of the transform, and what `DST`
held before is never read. -/
theorem finAndDstepsComputeDiffuse : Obligations.FinAndDstepsComputeDiffuse := by
  intro s rest hp hin hn
  have hfin := (stepNext_of_presented (listens_of_absorb_closed hp) hin).trans
    (effect_fin (s := { s with inputs := rest }) hp)
  have hrest : rest.all (fun e => !e.rst) = true := by
    rw [State.noResetAhead, hin, List.all_cons, Bool.and_eq_true] at hn
    exact hn.2
  obtain ⟨-, hrun⟩ := iterate_stepNext_diffuse (k := 64)
    (s := { s with inputs := rest, src := .ofWord s.st, oc := 0#4, ic := 0#3, phase := .diffuse }) hrest rfl (Nat.le_refl 64)
  rw [dstep_all_rounds rfl rfl, rounds_eq_diffuseBuffers] at hrun
  refine ⟨_, runSteps_eq 65 s, ?_⟩
  rw [Function.iterate_succ_apply, hfin, hrun]
  refine ⟨rfl, rfl, fun i => ?_, rfl, rfl, rfl, rfl⟩
  rw [diffuse, diffuseDst, byteAt_toWord, byteAt_toWord]
  exact ⟨rfl, rfl⟩

/-- The diffusion goes on until its 64th DSTEP. -/
theorem iterate_stepNext_phase_diffuse {k : Nat} {s : State} (hn : s.noResetAhead = true) (hp : s.phase = .diffuse)
    (hk : s.stepsDone + k < 64) : (stepNext^[k] s).phase = .diffuse := by
  rw [(iterate_stepNext_diffuse hn hp (by omega)).2, ← hp]
  exact (iterate_dstep_counts hk).1

/-- The 64th DSTEP ends it. -/
theorem iterate_stepNext_phase_done {k : Nat} {s : State} (hn : s.noResetAhead = true) (hp : s.phase = .diffuse)
    (hk : s.stepsDone + k = 63) : (stepNext^[k + 1] s).phase = .done := by
  have hlast : (dstep^[k] s).stepsDone = 63 := by rw [(iterate_dstep_counts (by omega)).2, hk]
  rw [(iterate_stepNext_diffuse hn hp (by omega)).2, Function.iterate_succ_apply' dstep k]
  exact dstep_phase_of_stepsDone_eq hlast

/-- Settles O10: the three kinds of DSTEP byte by byte; the writers of `DST` and `DG`; the count of steps from FIN. -/
theorem dstepFollowsTheRule : Obligations.DstepFollowsTheRule := by
  refine ⟨?_, ?_, ?_⟩
  · intro s hr hp
    refine ⟨_, step_eq s, ?_⟩
    rw [stepNext_diffuse_eq hr hp]
    refine ⟨dstep_st s, dstep_errcode s, dstep_freeIndex s, ?_⟩
    intro fb d m
    have hd : ∀ k, (shiftIn s.src).get k = d k := get_shiftIn s.src
    have hm : ∀ k, (mirrorAdd (shiftIn s.src)).get k = m k := fun k => by rw [get_mirrorAdd, hd, hd]
    rcases dstep_cases s with ⟨hic, e⟩ | ⟨hic, hoc, e⟩ | ⟨hic, hoc, e⟩
    · simp [e, hic, hd, hm, hp]
    · simp [e, hic, hoc, hd, hm, get_maskSrc, get_maskDst, ambiguousFlag, Config.ambigDigest]
    · have hoc' : s.oc + 1#4 ≠ 8#4 := by bv_omega
      simp [e, hic, hoc', hd, hm, get_maskSrc, get_maskDst, hp]
  · intro s t hr hp ht
    obtain ⟨-, -, hdst, hdg, -⟩ := onlyListedWritersWrite s t ht hr
    exact ⟨not_not.mp fun h => hp (hdst h).2, not_not.mp fun h => hp (hdg h).1.2⟩
  · intro s t hn hp ht
    obtain ⟨hphase, hsteps, hn'⟩ := diffuse_of_exec_fin hp ht
    have hn'' : t.noResetAhead = true := hn'.trans hn
    exact ⟨fun k hk => ⟨_, runSteps_eq k t, iterate_stepNext_phase_diffuse hn'' hphase (by omega)⟩,
      _, runSteps_eq 64 t, iterate_stepNext_phase_done hn'' hphase (by omega)⟩

end Sys2Proof.Machine
end

section
/-! The feedback byte is 0 from the first DSTEP on, and the mask turns it into `0xFF` in `DST[7]` (41_diffuse.md R96). -/

namespace Sys2Proof.Machine

/-- Every DSTEP leaves a buffer whose bytes cancel in pairs, or under the mask in pairs of pairs (41_diffuse.md R96 (a)). -/
theorem feedback_dstep (s : State) : feedback (dstep s).src = 0#8 := by
  rcases dstep_cases s with ⟨-, e⟩ | ⟨-, -, e⟩ | ⟨-, -, e⟩
  · rw [e, innerPass_src, feedback_mirrorAdd]
  · rw [e, complete_src, lastPass_src, feedback_maskSrc, feedback_mirrorAdd]
  · rw [e, lastPass_src, feedback_maskSrc, feedback_mirrorAdd]

theorem dstep_src_of_ic_ne {s : State} (h : s.ic ≠ 7#3) : (dstep s).src = mirrorAdd (shiftIn s.src) := by
  rw [dstep, if_pos h, innerPass_src]

theorem dstep_buffers_of_ic_eq {s : State} (h : s.ic = 7#3) :
    (dstep s).src = maskSrc (mirrorAdd (shiftIn s.src)) ∧ (dstep s).dst = maskDst (shiftIn s.src) := by
  rcases dstep_cases s with ⟨hne, -⟩ | ⟨-, -, e⟩ | ⟨-, -, e⟩
  · exact absurd h hne
  · simp [e]
  · simp [e]

/-- The mask complements the feedback byte in `DST` (R96 (b)). -/
theorem dstep_dst_seven {s : State} (hic : s.ic = 7#3) (hfb : feedback s.src = 0#8) : (dstep s).dst.get 7 = 0xff#8 := by
  rw [(dstep_buffers_of_ic_eq hic).2, get_maskDst, get_shiftIn, if_pos rfl, hfb]
  rfl

/-- A step leads to a diffusion under way by a DSTEP only. -/
theorem feedback_stepNext {s : State} (hp : (stepNext s).phase = .diffuse) (hsteps : (stepNext s).stepsDone ≠ 0) :
    feedback (stepNext s).src = 0#8 := by
  rcases stepNext_cases s with
    ⟨-, e⟩ | ⟨-, -, e⟩ | ⟨-, hf, e⟩ | ⟨-, -, -, e⟩ | ⟨i, -, hl, -, e⟩ | ⟨-, -, hne, e⟩ <;> rw [e] at hp hsteps ⊢
  · cases hp
  · exact feedback_dstep _
  · exact absurd (hf.symm.trans hp) nofun
  · cases hp
  · rcases effect_cases (i := i) (s := { s with inputs := s.inputs.tail }) hl with
      ⟨-, code, -, e'⟩ | ⟨-, ⟨-, e'⟩ | ⟨d, -, ha, e'⟩ | ⟨n, d, -, -, e'⟩ | ⟨-, -, e'⟩⟩ <;> rw [e'] at hp hsteps
    · cases hp
    · cases hp
    · exact absurd (ha.symm.trans hp) nofun
    · cases hp
    · exact absurd rfl hsteps
  · exact absurd hp hne

/-- After each of the rounds the mask has complemented a feedback of 0: the round's last DSTEP follows another. -/
theorem dst_seven_after_round {t : State} (hsteps : t.stepsDone = 0) {o : Nat} (ho : o < 8) :
    (dstep^[8 * o + 8] t).dst.get 7 = 0xff#8 := by
  have hcount := (iterate_dstep_counts (s := t) (k := 8 * o + 7) (by omega)).2
  have hic : (dstep^[8 * o + 7] t).ic = 7#3 := by
    unfold State.stepsDone at hcount hsteps
    bv_omega
  rw [Function.iterate_succ_apply']
  refine dstep_dst_seven hic ?_
  rw [Function.iterate_succ_apply']
  exact feedback_dstep _

/-- Settles O11: the palindrome and its feedback belong to DSTEP, from whatever state it starts. -/
theorem diffuserPalindrome : Obligations.DiffuserPalindrome := by
  refine ⟨?_, ?_, ?_, ?_, ?_⟩
  · intro s t hr hp ht
    rw [eq_stepNext ht, stepNext_diffuse_eq hr hp]
    refine ⟨fun hic k => ?_, fun hic k => ?_, feedback_dstep s⟩
    · rw [dstep_src_of_ic_ne hic]
      exact mirrorAdd_palindrome _ k
    · rw [(dstep_buffers_of_ic_eq hic).1]
      exact get_maskSrc_mirrorAdd _ k
  · intro s t hr hp ht hfb hic
    rw [eq_stepNext ht, stepNext_diffuse_eq hr hp]
    exact dstep_dst_seven hic hfb
  · intro s t ht hp hsteps
    rw [eq_stepNext ht] at hp hsteps ⊢
    exact feedback_stepNext hp hsteps
  · intro r s t hs hr hp hic ht
    have hsteps : s.stepsDone ≠ 0 := by simp [State.stepsDone, hic]
    have hfb : feedback s.src = 0#8 := by
      rw [eq_stepNext hs] at hp hsteps ⊢
      exact feedback_stepNext hp hsteps
    rw [eq_stepNext ht, stepNext_diffuse_eq hr hp]
    exact dstep_dst_seven hic hfb
  · intro s t hp hn ht o ho
    obtain ⟨hphase, hsteps, hn'⟩ := diffuse_of_exec_fin hp ht
    refine ⟨_, runSteps_eq _ t, ?_⟩
    rw [(iterate_stepNext_diffuse (hn'.trans hn) hphase (by omega)).2]
    refine ⟨?_, dst_seven_after_round hsteps ho⟩
    rw [Function.iterate_succ_apply']
    exact feedback_dstep _

end Sys2Proof.Machine
end

section
/-! What reaches the ports after an accepted INIT (42_orchestrator.md R118): in each phase the registers that a later output
can still depend on. -/

namespace Sys2Proof.Machine

/-- Two blocks with one host ahead agree on every register that an output can still show: `ST` only until FIN hands it to the
Diffuser, the Diffuser's registers only while it runs, the digest only in DONE. -/
structure SameView (s s' : State) : Prop where
  inputs : s.inputs = s'.inputs
  phase : s.phase = s'.phase
  errcode : s.errcode = s'.errcode
  az : s.az = s'.az
  openState : s.phase = .absorb ∨ s.phase = .closed → s.st = s'.st
  running : s.phase = .diffuse → s.src = s'.src ∧ s.oc = s'.oc ∧ s.ic = s'.ic
  digest : s.phase = .done → s.dg = s'.dg

theorem SameView.outputs {s s' : State} (h : SameView s s') : s.outputs = s'.outputs := by
  have hdigest : s.digest = s'.digest := by
    by_cases hp : s.phase = .done
    · simp [State.digest, State.done, ← h.phase, hp, h.digest hp]
    · simp [State.digest, State.done, ← h.phase, hp]
  simp only [State.outputs, State.cmdReady, State.done, State.busy, State.err, State.ambiguous, hdigest, h.phase,
    h.errcode, h.az]

theorem SameView.pins {s s' : State} (h : SameView s s') : s.pins = s'.pins := by
  simp only [State.pins, h.inputs]

theorem SameView.wordWaits {s s' : State} (h : SameView s s') : s.wordWaits = s'.wordWaits := by
  simp only [State.wordWaits, State.cmdReady, h.pins, h.phase]

theorem SameView.advanceInputs {s s' : State} (h : SameView s s') : SameView s.advanceInputs s'.advanceInputs where
  inputs := by rw [State.advanceInputs_inputs, State.advanceInputs_inputs, h.wordWaits, h.inputs]
  phase := h.phase
  errcode := h.errcode
  az := h.az
  openState := h.openState
  running := h.running
  digest := h.digest

/-- After a reset no output shows a free value. -/
theorem sameView_applyReset {s s' : State} (h : s.inputs = s'.inputs) : SameView (applyReset s) (applyReset s') where
  inputs := h
  phase := rfl
  errcode := rfl
  az := rfl
  openState := by simp
  running := nofun
  digest := nofun

/-- Nor does an INIT leave anything of the block before it, `ERRCODE` excepted. -/
theorem sameView_effect_init {s s' : State} (hin : s.inputs = s'.inputs) (he : s.errcode = s'.errcode) :
    SameView (effect .init s) (effect .init s') where
  inputs := hin
  phase := rfl
  errcode := he
  az := rfl
  openState _ := rfl
  running := nofun
  digest := nofun

theorem SameView.protocolError {s s' : State} (h : SameView s s') (code : ErrCode) :
    SameView (protocolError code s) (protocolError code s') where
  inputs := h.inputs
  phase := rfl
  errcode := rfl
  az := h.az
  openState := by simp
  running := nofun
  digest := nofun

theorem SameView.effect {s s' : State} (h : SameView s s') (i : Instr) : SameView (effect i s) (effect i s') := by
  cases i with
  | init => exact sameView_effect_init h.inputs h.errcode
  | foldw d =>
    simp only [Machine.effect, ← h.phase]
    split
    case isTrue hp =>
      exact ⟨h.inputs, rfl, h.errcode, h.az, fun _ => by simp only [h.openState (.inl hp)], h.running, h.digest⟩
    case isFalse => exact h.protocolError _
  | foldp n d =>
    simp only [Machine.effect, ← h.phase]
    split
    case isTrue hp =>
      exact ⟨h.inputs, rfl, h.errcode, h.az, fun _ => by simp only [h.openState (.inl hp)], nofun, nofun⟩
    case isFalse => exact h.protocolError _
  | fin =>
    simp only [Machine.effect, ← h.phase]
    split
    case isTrue hp =>
      exact ⟨h.inputs, rfl, h.errcode, h.az, by simp, fun _ => by simp only [h.openState hp, and_self], nofun⟩
    case isFalse => exact h.protocolError _

theorem SameView.acceptNext {s s' : State} (h : SameView s s') (cw : CmdWord) :
    SameView (acceptNext cw s) (acceptNext cw s') := by
  simp only [Machine.acceptNext, ← h.phase]
  split
  · cases decode cw with
    | command i => exact h.effect i
    | illegal => exact h.protocolError _
  · exact h

/-- DSTEP reads `SRC`, `OC` and `IC`, and writes the digest and the flag from them. -/
theorem SameView.dstep {s s' : State} (h : SameView s s') (hp : s.phase = .diffuse) :
    SameView (dstep s) (dstep s') := by
  obtain ⟨hsrc, hoc, hic⟩ := h.running hp
  simp only [Machine.dstep, ← hoc, ← hic]
  split_ifs
  · exact { h with running := fun _ => by simp only [innerPass_src, innerPass_oc, innerPass_ic, hsrc, hoc, hic, and_self] }
  · exact ⟨h.inputs, rfl, h.errcode, by simp [hsrc], by simp, nofun, fun _ => by simp [hsrc]⟩
  · exact { h with running := fun _ => by simp only [lastPass_src, lastPass_oc, lastPass_ic, hsrc, hoc, and_self] }

theorem SameView.stepNext {s s' : State} (h : SameView s s') : SameView (stepNext s) (stepNext s') := by
  simp only [Machine.stepNext, ← h.pins, ← h.phase]
  split_ifs with hr hp hv
  · exact sameView_applyReset h.advanceInputs.inputs
  · exact h.advanceInputs.dstep hp
  · exact h.advanceInputs.acceptNext _
  · exact h.advanceInputs

theorem SameView.iterate {s s' : State} (h : SameView s s') (k : Nat) :
    SameView (Machine.stepNext^[k] s) (Machine.stepNext^[k] s') := by
  induction k with
  | zero => exact h
  | succ k ih =>
    simp only [Function.iterate_succ_apply']
    exact ih.stepNext

/-- Settles O32: an accepted INIT leaves the two blocks with the same view, and every step keeps it. -/
theorem outputsDependOnlyOnInputsSinceInit : Obligations.OutputsDependOnlyOnInputsSinceInit := by
  intro s s' rest k t t' hinv hinv' hl hl' hin hin' ht ht'
  rw [runSteps_eq, Function.iterate_succ_apply] at ht ht'
  cases ht
  cases ht'
  have he : s.errcode = s'.errcode := by
    rw [hinv.errcode_eq_none ((listens_iff _).mp hl).2, hinv'.errcode_eq_none ((listens_iff _).mp hl').2]
  rw [stepNext_of_presented hl hin, stepNext_of_presented hl' hin']
  exact ((sameView_effect_init (s := { s with inputs := rest }) (s' := { s' with inputs := rest }) rfl he).iterate k).outputs

end Sys2Proof.Machine
end

section
/-! The whole hash (42_orchestrator.md R114): INIT, the words of `MSG`, FIN and the 64 DSTEPs, one after the other. -/

namespace Sys2Proof.Machine

theorem StateInv.iterate {s : State} (h : StateInv s) (k : Nat) : StateInv (Machine.stepNext^[k] s) := by
  induction k with
  | zero => exact h
  | succ k ih =>
    rw [Function.iterate_succ_apply']
    exact ih.stepNext

theorem dstep_inputs (s : State) : (dstep s).inputs = s.inputs := by
  rcases dstep_cases s with ⟨_, e⟩ | ⟨_, _, e⟩ | ⟨_, _, e⟩ <;> simp [e]

theorem acceptNext_inputs (cw : CmdWord) (s : State) : (acceptNext cw s).inputs = s.inputs := by
  unfold acceptNext
  split
  · cases decode cw with
    | command i => exact effect_inputs i s
    | illegal => rfl
  · rfl

/-- Whatever else a step does, the host moves on to its next sample or keeps a word that waits. -/
theorem stepNext_inputs (s : State) : (stepNext s).inputs = s.advanceInputs.inputs := by
  unfold stepNext
  split_ifs
  · rfl
  · exact dstep_inputs _
  · exact acceptNext_inputs _ _
  · rfl

/-- A host that has nothing more to drive stays so. -/
theorem iterate_stepNext_inputs_nil {s : State} (h : s.inputs = []) (k : Nat) : (stepNext^[k] s).inputs = [] := by
  induction k with
  | zero => exact h
  | succ k ih =>
    rw [Function.iterate_succ_apply', stepNext_inputs, State.advanceInputs_inputs, ih, List.tail_nil, ite_self]

/-- From any phase that listens, the words of `HASH m` but its FIN leave the fold of `m` in `ST` and the stream open or
closed. -/
theorem iterate_stepNext_init_msgCommands (m : List Byte) {s : State} {rest : List PortSample}
    (hl : s.phase.listens = true)
    (hin : s.inputs = .present (encode .init) :: (presentAll ((msgCommands m).map encode) ++ rest)) :
    stepNext^[(msgCommands m).length + 1] s = { s with
      st := foldMsg m, az := false, phase := if m.length % 8 = 0 then .absorb else .closed, inputs := rest } := by
  rw [Function.iterate_succ_apply, stepNext_of_presented hl hin]
  exact iterate_stepNext_msgCommands m rfl rfl

/-- An accepted FIN and the 64 DSTEPs compute the digest of `ST` and its flag. -/
theorem iterate_stepNext_fin {s : State} {rest : List PortSample} (hp : s.phase = .absorb ∨ s.phase = .closed)
    (hin : s.inputs = .present (encode .fin) :: rest) (hn : s.noResetAhead = true) :
    (stepNext^[65] s).phase = .done ∧ (stepNext^[65] s).dg = diffuse s.st ∧
      (stepNext^[65] s).az = ambiguousFlag (diffuse s.st) := by
  obtain ⟨t, ht, hphase, hdg, -, -, -, haz, -⟩ := finAndDstepsComputeDiffuse s rest hp hin hn
  rw [runSteps_eq] at ht
  injection ht with ht
  rw [ht]
  exact ⟨hphase, hdg, haz⟩

theorem referenceCycles_eq (m : List Byte) : referenceCycles m.length = 65 + ((msgCommands m).length + 1) := by
  rw [referenceCycles, length_msgCommands, Config.diffuseSteps, Config.outerRounds, Config.innerRounds]
  omega

/-- Settles O40: INIT and the words of `MSG` fold the message, FIN and the DSTEPs compute its transform, and the invariant
excludes an error in DONE. -/
theorem hashSequenceComputesHashBytes : Obligations.HashSequenceComputesHashBytes := by
  intro m ws s hinv hl hws hin
  have hin' : s.inputs = .present (encode .init) ::
      (presentAll ((msgCommands m).map encode) ++ [.present (encode .fin)]) := by
    rw [hin, ← Option.some_inj.mp ((expand_hash m).symm.trans hws)]
    simp only [presentAll, List.map_cons, List.map_append, List.map_nil]
  have hfold := iterate_stepNext_init_msgCommands m hl hin'
  have hinv' := hinv.iterate ((msgCommands m).length + 1)
  refine ⟨_, runSteps_eq _ s, ?_⟩
  rw [referenceCycles_eq, Function.iterate_add_apply]
  generalize stepNext^[(msgCommands m).length + 1] s = u at hfold hinv' ⊢
  have hu : u.phase = .absorb ∨ u.phase = .closed := by
    rw [hfold]
    exact ite_eq_or_eq ..
  have huin : u.inputs = [.present (encode .fin)] := by rw [hfold]
  have hust : u.st = foldMsg m := by rw [hfold]
  obtain ⟨hphase, hdg, haz⟩ := iterate_stepNext_fin hu huin (by rw [State.noResetAhead, huin]; rfl)
  rw [hust] at hdg haz
  have herr := (hinv'.iterate 65).errcode_eq_none (by rw [hphase]; decide)
  have hdrained : (stepNext^[65] u).inputs = [] := by
    rw [Function.iterate_succ_apply, stepNext_of_presented (listens_of_absorb_closed hu) huin]
    exact iterate_stepNext_inputs_nil (effect_inputs _ _) 64
  exact ⟨hphase, hdg, haz, herr, hdrained, rfl, rfl⟩

end Sys2Proof.Machine
end

section
/-! The phase machine (42_orchestrator.md R106), and which step performs which command (R110, R111). -/

namespace Sys2Proof.Machine

/-- A command outside DIFFUSE goes where the acceptance of its word goes. -/
theorem exec_eq_acceptNext {cw : CmdWord} {i : Instr} (h : decode cw = .command i) (s : State) :
    exec i s = .next (acceptNext cw s) := by
  rw [exec_eq, whenHeard, acceptNext, h]

/-- An accepted word performs the command it decodes to. -/
theorem step_of_accepts {s : State} {i : Instr} (ha : s.accepts = true) (hd : decode s.pins.cmd = .command i) :
    step s = exec i { s with inputs := s.inputs.tail } := by
  rw [step_eq, stepNext_of_accepts ha, exec_eq_acceptNext hd]

theorem decode_of_decodeTableWord {nbits w : Nat} {i : Instr} (h : decodeTableWord nbits w = some i) :
    decode (BitVec.ofNat 72 (w % 2 ^ nbits)) = .command i := by
  unfold decodeTableWord at h
  split at h
  · split at h
    · cases h
      assumption
    · cases h
  · cases h

/-- Outside DIFFUSE an offered word is accepted at once. -/
theorem accepts_offer {s : State} (cw : CmdWord) (h : s.phase ≠ .diffuse) : (s.offer cw).accepts = true :=
  (accepts_iff _).mpr ⟨rfl, rfl, h⟩

/-- Settles O26: an accepted word is performed; a placed word is accepted, and the host is then where it was. -/
theorem stepRunsTheDecodedCommand : Obligations.StepRunsTheDecodedCommand :=
  ⟨fun _ _ => step_of_accepts, fun _ _ _ _ hp hd => step_of_accepts (accepts_offer _ hp) (decode_of_decodeTableWord hd)⟩

theorem exec_init {s : State} (h : s.phase.listens = true) :
    exec .init s = .next { s with st := Config.initialState, az := false, phase := .absorb } :=
  exec_of_listens h .init

theorem exec_fin {s : State} (h : s.phase = .absorb ∨ s.phase = .closed) :
    exec .fin s = .next { s with src := .ofWord s.st, oc := 0#4, ic := 0#3, phase := .diffuse } := by
  rw [exec_of_listens (listens_of_absorb_closed h), effect_fin h]

theorem exec_fin_seqFin {s : State} (h : s.phase = .idle ∨ s.phase = .done) :
    exec .fin s = .next (protocolError .seqFin s) := by
  have hl : s.phase.listens = true ∧ ¬(s.phase = .absorb ∨ s.phase = .closed) := by
    rcases h with h | h <;> rw [h] <;> decide
  rw [exec_of_listens hl.1, effect, if_neg hl.2]

/-- The last DSTEP, and no other, ends the diffusion. -/
theorem dstep_phase (s : State) : (dstep s).phase = if s.ic = 7#3 ∧ s.oc = 7#4 then .done else s.phase := by
  rcases dstep_cases s with ⟨hic, e⟩ | ⟨hic, hoc, e⟩ | ⟨-, hoc, e⟩ <;> simp [*]

theorem exec_foldp_of_absorb {s : State} (h : s.phase = .absorb) (n : BitVec 3) (d : Word64) :
    exec (.foldp n d) s =
      .next { s with st := if n = 0#3 then s.st else foldw s.st (paddedTail n d), phase := .closed } := by
  rw [exec_of_listens (by rw [h]; rfl), effect, if_pos h]

/-- Settles O17: each kind of step; an accepted word by the next state of the command it performs. -/
theorem phaseTable : Obligations.PhaseTable := by
  intro s t ht
  refine ⟨fun hr => ?_, fun hr hp => ?_, fun ha => ⟨fun hf => ?_, fun hf hd => ?_, ?_⟩, fun hr hv hp => ?_⟩
  · rw [eq_stepNext ht, stepNext_of_reset hr, applyReset_phase]
  · rw [eq_stepNext ht, stepNext_diffuse_eq hr hp]
    exact (dstep_phase s).trans (by rw [hp])
  · rw [eq_stepNext ht, stepNext_of_accepts ha, acceptNext, if_neg (by simp [hf, Phase.listens])]
  · rw [step_of_illegal ha hf hd] at ht
    cases ht
    exact ⟨rfl, rfl⟩
  · obtain ⟨u, hu, hexec⟩ : ∃ u : State, u.phase = s.phase ∧ ∀ i, decode s.pins.cmd = .command i → exec i u = .next t :=
      ⟨{ s with inputs := s.inputs.tail }, rfl, fun i hd => (step_of_accepts ha hd).symm.trans ht⟩
    have hdiff : u.phase ≠ .diffuse := hu ▸ ((accepts_iff s).mp ha).2.2
    rw [← hu]
    refine ⟨fun hf hd => ?_, fun d hp hd => ?_, fun n d hp hd => ?_, fun d hp hd => ?_, fun n d hp hd => ?_,
      fun hp hd => ?_, fun hp hd => ?_⟩
    · cases (hexec _ hd).symm.trans (exec_init ((listens_iff u.phase).mpr ⟨hdiff, hf⟩))
      rfl
    · cases (hexec _ hd).symm.trans (exec_foldw_absorb hp d)
      exact hp
    · cases (hexec _ hd).symm.trans (exec_foldp_of_absorb hp n d)
      rfl
    · cases (hexec _ hd).symm.trans (exec_foldw_seqFold d hp)
      exact ⟨rfl, rfl⟩
    · cases (hexec _ hd).symm.trans (exec_foldp_seqFold n d hp)
      exact ⟨rfl, rfl⟩
    · cases (hexec _ hd).symm.trans (exec_fin hp)
      rfl
    · cases (hexec _ hd).symm.trans (exec_fin_seqFin hp)
      exact ⟨rfl, rfl⟩
  · rw [eq_stepNext ht, stepNext_of_quiet hr hv hp]

/-- In DIFFUSE without a reset, what is on the port reaches no register. -/
theorem stepNext_diffuse_withInputs {s : State} {e : PortSample} (hr : e.rst = false) (hp : s.phase = .diffuse)
    (rest : List PortSample) : ∃ l, stepNext { s with inputs := e :: rest } = { dstep s with inputs := l } := by
  rw [stepNext_diffuse_eq (s := { s with inputs := e :: rest }) hr hp, dstep_withInputs]
  exact ⟨_, rfl⟩

/-- Settles O31: in DIFFUSE a step is DSTEP on the registers, and the host's list keeps a word that waits. -/
theorem wordsWaitForTheDiffuser : Obligations.WordsWaitForTheDiffuser := by
  refine ⟨accepts_iff, fun s e e' rest t t' hp hr hr' ht ht' => ?_, fun s e rest t hp hr hv hh ht => ?_,
    fun s hr hv hp => by rw [step_eq, stepNext_of_quiet hr hv hp]⟩
  · obtain ⟨l, h⟩ := stepNext_diffuse_withInputs hr hp rest
    obtain ⟨l', h'⟩ := stepNext_diffuse_withInputs hr' hp rest
    rw [eq_stepNext ht, eq_stepNext ht', h, h']
  · have hwaits : State.wordWaits { s with inputs := e :: rest } = true := by
      simp [State.wordWaits, State.pins, State.cmdReady, hr, hv, hh, hp]
    rw [eq_stepNext ht, stepNext_inputs, State.advanceInputs_inputs, if_pos hwaits]

end Sys2Proof.Machine
end

section
/-! INIT and FIN in every phase (42_orchestrator.md R107, R108). -/

namespace Sys2Proof.Machine

theorem listens_iff_idle_absorb_closed_done (p : Phase) :
    p.listens = true ↔ p = .idle ∨ p = .absorb ∨ p = .closed ∨ p = .done := by
  cases p <;> decide

/-- What INIT leads to, in the phases that listen and in those that do not. -/
theorem exec_init_cases {s t : State} (h : exec .init s = .next t) :
    (s.phase.listens = true ∧ t = { s with st := Config.initialState, az := false, phase := .absorb }) ∨
    (s.phase.listens = false ∧ t = s) := by
  cases hl : s.phase.listens with
  | true =>
    rw [exec_init hl] at h
    cases h
    exact .inl ⟨rfl, rfl⟩
  | false =>
    rw [exec_eq, whenHeard_of_deaf _ hl] at h
    cases h
    exact .inr ⟨rfl, rfl⟩

/-- In IDLE and DONE only INIT is listed. -/
theorem legalIn_idle_done_iff {p : Phase} (hp : p = .idle ∨ p = .done) (i : Instr) :
    legalIn p i = true ↔ i = .init := by
  rcases hp with rfl | rfl <;> cases i <;> simp [legalIn]

/-- Without a reset, IDLE and DONE are left by INIT or by a protocol error. -/
theorem performs_init_of_leaves {s : State} (hp : s.phase = .idle ∨ s.phase = .done) (hr : s.pins.rst = false)
    (hne : (stepNext s).phase ≠ s.phase) (hf : (stepNext s).phase ≠ .fault) : s.performs .init := by
  rcases stepNext_cases s with
    ⟨hr', -⟩ | ⟨-, hd, -⟩ | ⟨-, -, e⟩ | ⟨-, -, -, e⟩ | ⟨i, ha, hl, hd, e⟩ | ⟨-, -, -, e⟩
  · simp [hr] at hr'
  · simp [hd] at hp
  · exact absurd (by rw [e]) hne
  · exact absurd (by rw [e, protocolError_phase]) hf
  · cases hi : legalIn s.phase i with
    | true => exact ⟨ha, ((listens_iff _).mp hl).2, (legalIn_idle_done_iff hp i).mp hi ▸ hd⟩
    | false =>
      obtain ⟨code, -, he⟩ := effect_illegal (s := { s with inputs := s.inputs.tail }) hl hi
      exact absurd (by rw [e, he, protocolError_phase]) hf
  · exact absurd (by rw [e]) hne

/-- Settles O5: INIT overwrites what it leaves in `ST`, so nothing of what was there matters; of the words accepted in IDLE and
DONE every other is an error. -/
theorem initSeedsTheState : Obligations.InitSeedsTheState := by
  refine ⟨fun s hp => exec_init ((listens_iff_idle_absorb_closed_done _).mpr hp), fun _ hp => exec_of_fault hp _,
    fun _ => accepts_of_diffuse, fun d => decode_append _ d, fun s t ht => ?_, fun s t hd ht => ?_, fun s v hp => ?_,
    fun s t hp hr ht hne hf => ?_⟩
  · rcases exec_init_cases ht with ⟨-, rfl⟩ | ⟨-, rfl⟩
    · exact exec_init rfl
    · exact ht
  · rcases exec_init_cases ht with ⟨-, rfl⟩ | ⟨hl, rfl⟩
    · rfl
    · have hf : t.phase = .fault := by
        by_contra hf
        simp [(listens_iff _).mpr ⟨hd, hf⟩] at hl
      simp [State.outputs, State.done, hf]
  · have hl := listens_of_absorb_closed hp
    rw [exec_init hl, exec_init (s := { s with st := v }) hl]
  · rw [eq_stepNext ht] at hne hf
    exact performs_init_of_leaves hp hr hne hf

/-- The 64 steps after FIN compute the digest of `ST` and its flag, whatever the host drives short of a reset: they are those of
a block whose host presents the FIN. -/
theorem iterate_stepNext_effect_fin {s : State} (hp : s.phase = .absorb ∨ s.phase = .closed)
    (hn : s.noResetAhead = true) :
    (stepNext^[64] (effect .fin s)).phase = .done ∧ (stepNext^[64] (effect .fin s)).dg = diffuse s.st ∧
      (stepNext^[64] (effect .fin s)).az = ambiguousFlag (diffuse s.st) := by
  have hstep : stepNext (s.offer (encode .fin)) = effect .fin s :=
    stepNext_of_presented (s := s.offer (encode .fin)) (listens_of_absorb_closed hp) rfl
  rw [← hstep, ← Function.iterate_succ_apply]
  exact iterate_stepNext_fin (s := s.offer (encode .fin)) hp rfl hn

/-- Settles O8: FIN writes the bytes of `ST` into `SRC`; the example is the audited vector of `digestIsFinalSrc`. -/
theorem finHandsTheStateToTheDiffuser : Obligations.FinHandsTheStateToTheDiffuser := by
  refine ⟨fun s hp => ⟨_, exec_fin hp, rfl, Bytes8.get_ofWord s.st⟩, fun _ => exec_fin_seqFin,
    fun _ hp => exec_of_fault hp _, fun _ => accepts_of_diffuse, fun d => decode_append _ d, fun s hp hst hn => ?_⟩
  have hexec := exec_of_listens (listens_of_absorb_closed (.inl hp)) .fin
  obtain ⟨hphase, hdg, haz⟩ := iterate_stepNext_effect_fin (.inl hp) hn
  rw [hst, digestIsFinalSrc.1] at hdg haz
  refine ⟨?_, _, _, hexec, runSteps_eq 64 _, hdg, haz, hphase⟩
  have hbytes : Bytes8.ofWord 0x1c98c677de371c7d#64 =
      ⟨0x1c#8, 0x98#8, 0xc6#8, 0x77#8, 0xde#8, 0x37#8, 0x1c#8, 0x7d#8⟩ := by decide
  rw [exec_fin (.inl hp), hst, hbytes]

end Sys2Proof.Machine
end

section
/-! Hashes of particular messages (42_orchestrator.md R109, R115) and the source's software loop (R116). -/

namespace Sys2Proof.Machine

/-- A message that folds to the seed has the ambiguous digest. -/
theorem hashBytes_of_foldMsg_eq_seed {m : List Byte} (h : foldMsg m = Config.initialState) :
    hashBytes m = ⟨0xb4bb4023dcbf444b#64, true⟩ := by
  rw [hashBytes, hashOfState, h, Config.initialState, digestIsFinalSrc.1]
  rfl

theorem foldMsg_replicate_zero (k : Nat) : foldMsg (List.replicate (8 * k) 0#8) = Config.initialState :=
  Option.some_inj.mp (foldChunk_replicate_zero _ k)

/-- Settles O41: zero words leave the seed as it is, and its digest is the audited vector. -/
theorem zeroMessagesGiveTheAmbiguousDigest : Obligations.ZeroMessagesGiveTheAmbiguousDigest :=
  ⟨hashBytes_of_foldMsg_eq_seed rfl, fun k => hashBytes_of_foldMsg_eq_seed (foldMsg_replicate_zero k)⟩

/-- Settles O42: a word sent twice cancels, and bit 55 of the seed reaches no digest. -/
theorem ambiguousFlagDoesNotMeanAllZero : Obligations.AmbiguousFlagDoesNotMeanAllZero := by
  constructor
  · rw [hashBytes_of_foldMsg_eq_seed]
    exact foldw_foldw Config.initialState _
  · have hfold : foldMsg [0#8, 0x80#8, 0#8, 0#8, 0#8, 0#8, 0#8, 0#8] = Config.initialState ^^^ 0x0080000000000000#64 := by
      decide
    rw [hashBytes, hashOfState, hfold, ← diffuse_flip_bit55, Config.initialState, digestIsFinalSrc.1]
    rfl

/-- The loop folds every read as a final chunk: a short one because it takes it for the last, a full one because its length is
a multiple of 8. -/
theorem foldChunk_read {chunk : Nat} {r : List Byte} (st : Word64) (hc : chunk % 8 = 0) (hr : r.length ≤ chunk) :
    foldChunk st r (decide (r.length < chunk)) = some (foldFinalChunk st r) := by
  by_cases hlt : r.length < chunk
  · rw [decide_eq_true hlt, foldChunk_final]
  · have hfull : r.length % 8 = 0 := by rw [Nat.le_antisymm hr (not_lt.mp hlt), hc]
    rw [decide_eq_false hlt, foldChunk_nonfinal st hfull, foldFinalChunk_of_dvd st hfull]

theorem hasherFold_eq {chunk : Nat} (hc : chunk % 8 = 0) {reads : List (List Byte)} (h : ∀ r ∈ reads, r.length ≤ chunk)
    (st : Word64) : hasherFold chunk st reads = some (reads.foldl foldFinalChunk st) := by
  induction reads generalizing st with
  | nil => rfl
  | cons r rs ih =>
    obtain ⟨hr, hrs⟩ := List.forall_mem_cons.mp h
    rw [hasherFold, foldChunk_read st hc hr, Option.bind_some, ih hrs, List.foldl_cons]

theorem hasherRef_eq {chunk : Nat} {reads : List (List Byte)} (hc : chunk % 8 = 0)
    (h : ∀ r ∈ reads, 1 ≤ r.length ∧ r.length ≤ chunk) :
    hasherRef chunk reads = some (hashOfState (reads.foldl foldFinalChunk Config.initialState)) := by
  rw [hasherRef, if_pos (by simpa using h), hasherFold_eq hc fun r hr => (h r hr).2, Option.map_some]

/-- Reads of whole words but for the last fold as their concatenation. -/
theorem foldl_foldFinalChunk_eq_flatten {reads : List (List Byte)} (h : ∀ r ∈ reads.dropLast, r.length % 8 = 0)
    (st : Word64) : reads.foldl foldFinalChunk st = foldFinalChunk st reads.flatten := by
  induction reads generalizing st with
  | nil => rfl
  | cons r rs ih =>
    cases rs with
    | nil => simp
    | cons r' rs =>
      rw [List.dropLast_cons_cons, List.forall_mem_cons] at h
      obtain ⟨hr, hrs⟩ := h
      rw [List.foldl_cons, ih hrs, List.flatten_cons (l := r), foldFinalChunk_append st _ hr, foldFinalChunk_of_dvd st hr]

/-- Two reads of one byte: the loop pads each, and the hardware pads their concatenation once. -/
theorem hasherRef_short_reads_ne :
    hasherRef 8 [[0#8], [0#8]] ≠ some (hashBytes [[0#8], [0#8]].flatten) := by
  decide +kernel

/-- Settles O43: the loop folds each read as a final chunk, which padding makes visible unless all but the last are whole
words. -/
theorem sourceLoopAgreesOnFullReads : Obligations.SourceLoopAgreesOnFullReads := by
  refine ⟨fun chunk reads hc h => ?_, fun chunk reads hc h hwords => ?_,
    8, [[0#8], [0#8]], rfl, by decide, hasherRef_short_reads_ne⟩
  · rw [hasherRef_eq hc h, Option.isSome_some]
  · rw [hasherRef_eq hc h, foldl_foldFinalChunk_eq_flatten hwords]
    rfl

end Sys2Proof.Machine
end

section
/-! Protocol errors (60_exceptions.md R126 to R132): the state FAULT, the one sequence error each command has, and the order of
the checks. -/

namespace Sys2Proof.Machine

/-! ### The state FAULT -/

/-- In FAULT, without a reset, a step moves the host on and does nothing else, whether a word is on the port or not. -/
theorem stepNext_of_fault {s : State} (hp : s.phase = .fault) (hr : s.pins.rst = false) :
    stepNext s = { s with inputs := s.inputs.tail } := by
  have hd : s.phase ≠ .diffuse := by rw [hp]; decide
  cases hv : s.pins.cmdValid with
  | true =>
    rw [stepNext_of_accepts ((accepts_iff s).mpr ⟨hr, hv, hd⟩)]
    exact if_neg (by simp [hp, Phase.listens])
  | false => exact stepNext_of_quiet hr hv hd

/-- In FAULT every word is accepted and ignored. -/
theorem step_of_fault {s : State} (hp : s.phase = .fault) (ha : s.accepts = true) :
    step s = .next { s with inputs := s.inputs.tail } := by
  rw [step_eq, stepNext_of_fault hp ((accepts_iff s).mp ha).1]

theorem outputs_of_fault {s : State} (hp : s.phase = .fault) :
    s.outputs = { cmdReady := true, done := false, busy := false, err := true, errcode := s.errcode.code, phase := 7#3,
                  digest := none, ambiguous := false } := by
  simp [State.outputs, State.cmdReady, State.done, State.busy, State.err, State.digest, State.ambiguous, Phase.code, hp]

/-- In FAULT, with no reset ahead, `k` steps take `k` samples off the host's list. -/
theorem iterate_stepNext_fault (k : Nat) {s : State} (hp : s.phase = .fault) (hn : s.noResetAhead = true) :
    stepNext^[k] s = { s with inputs := s.inputs.drop k } := by
  induction k generalizing s with
  | zero => rfl
  | succ k ih =>
    have hn' := noResetAhead_advanceInputs hn
    rw [advanceInputs_of_ready (by rw [hp]; decide)] at hn'
    rw [Function.iterate_succ_apply, stepNext_of_fault hp (pins_rst_of_noResetAhead hn),
      ih (s := { s with inputs := s.inputs.tail }) hp hn', List.drop_tail]

/-- Settles O20: by induction on the number of steps, no register changes, and in FAULT the outputs are a function of
`ERRCODE`. -/
theorem faultIgnoresEveryWord : Obligations.FaultIgnoresEveryWord := by
  intro s k hp hn
  refine ⟨_, ?_, rfl, outputs_of_fault (s := { s with inputs := s.inputs.drop k }) hp⟩
  rw [runSteps_eq, iterate_stepNext_fault k hp hn]

/-! ### The error of a command -/

/-- The one sequence error a command can raise (R127); INIT can raise none. -/
def sequenceError : Instr → ErrCode
  | .init => .none
  | .foldw _ => .seqFold
  | .foldp _ _ => .seqFold
  | .fin => .seqFin

theorem sequenceError_of_illegal {p : Phase} {i : Instr} (hl : p.listens = true) (h : legalIn p i = false) :
    sequenceError i = .seqFold ∨ sequenceError i = .seqFin := by
  cases i with
  | init => cases p <;> simp [legalIn, Phase.listens] at hl h
  | foldw | foldp => exact .inl rfl
  | fin => exact .inr rfl

/-- A heard command that the phase table does not list is the protocol error of its sequence error. -/
theorem effect_of_illegal {i : Instr} {s : State} (hl : s.phase.listens = true) (h : legalIn s.phase i = false) :
    effect i s = protocolError (sequenceError i) s := by
  cases i with
  | init => cases hp : s.phase <;> simp [hp, legalIn, Phase.listens] at hl h
  | foldw | foldp =>
    have hp : s.phase ≠ .absorb := fun hp => by simp [hp, legalIn] at h
    exact if_neg hp
  | fin =>
    have hp : ¬(s.phase = .absorb ∨ s.phase = .closed) := by rintro (hp | hp) <;> simp [hp, legalIn] at h
    exact if_neg hp

/-- No command that the phase table lists writes `ERRCODE`. -/
theorem effect_errcode_of_legal {i : Instr} {s : State} (hl : s.phase.listens = true) (h : legalIn s.phase i = true) :
    (effect i s).errcode = s.errcode := by
  rcases effect_cases (i := i) hl with ⟨h', -⟩ | ⟨-, ⟨-, e⟩ | ⟨d, -, -, e⟩ | ⟨n, d, -, -, e⟩ | ⟨-, -, e⟩⟩
  · simp [h] at h'
  all_goals rw [e]

/-- An accepted word is heard outside FAULT. -/
theorem listens_of_accepts {s : State} (ha : s.accepts = true) (hp : s.phase ≠ .fault) : s.phase.listens = true :=
  (listens_iff _).mpr ⟨((accepts_iff s).mp ha).2.2, hp⟩

/-- Outside FAULT an accepted command has its effect, on the moved-on host. -/
theorem stepNext_of_command {s : State} {i : Instr} (ha : s.accepts = true) (hp : s.phase ≠ .fault)
    (hd : decode s.pins.cmd = .command i) : stepNext s = effect i { s with inputs := s.inputs.tail } := by
  rw [stepNext_of_accepts ha, acceptNext, if_pos (listens_of_accepts ha hp), hd]

/-- Accepting a command that the phase table does not list is the protocol error of its sequence error and nothing else. -/
theorem step_of_illegal_command {s : State} {i : Instr} (ha : s.accepts = true) (hp : s.phase ≠ .fault)
    (hd : decode s.pins.cmd = .command i) (hi : legalIn s.phase i = false) :
    step s = .next (protocolError (sequenceError i) { s with inputs := s.inputs.tail }) := by
  have hl := listens_of_accepts ha hp
  rw [step_eq, stepNext_of_command ha hp hd, effect_of_illegal (s := { s with inputs := s.inputs.tail }) hl hi]

/-- A step taken as a protocol error is one, with a code other than 0, on the moved-on host. -/
theorem step_of_errs {s : State} (h : s.errs) : ∃ code, code ≠ .none ∧
    step s = .next (protocolError code { s with inputs := s.inputs.tail }) := by
  obtain ⟨ha, hl, hd | ⟨i, hd, hi⟩⟩ := h
  · exact ⟨.illegalCmd, nofun, step_of_illegal ha ((listens_iff _).mp hl).2 hd⟩
  · refine ⟨sequenceError i, ?_, step_of_illegal_command ha ((listens_iff _).mp hl).2 hd hi⟩
    rcases sequenceError_of_illegal hl hi with e | e <;> rw [e] <;> exact nofun

/-- Settles O18: an illegal word and a command out of sequence are both `protocolError`, which writes `ERRCODE` and `PHASE`. -/
theorem protocolErrorIsPrecise : Obligations.ProtocolErrorIsPrecise := by
  intro s h
  obtain ⟨code, hc, hstep⟩ := step_of_errs h
  exact ⟨code, hc, hstep, outputs_of_fault rfl⟩

/-! ### The cause of each code -/

/-- A step that accepts no word raises nothing. -/
theorem stepNext_errcode_of_not_accepts {s : State} (he : s.errcode = .none) (ha : s.accepts = false) :
    (stepNext s).errcode = .none := by
  rcases stepNext_cases s with ⟨-, e⟩ | ⟨-, -, e⟩ | ⟨ha', -⟩ | ⟨ha', -⟩ | ⟨i, ha', -⟩ | ⟨-, -, -, e⟩
  · rw [e, applyReset_errcode]
  · rw [e, dstep_errcode, State.advanceInputs_errcode, he]
  · simp [ha] at ha'
  · simp [ha] at ha'
  · simp [ha] at ha'
  · rw [e, he]

/-- An accepted command raises its sequence error where the phase table does not list it, and nothing where it does. -/
theorem stepNext_errcode_of_command {s : State} {i : Instr} (he : s.errcode = .none) (hp : s.phase ≠ .fault)
    (ha : s.accepts = true) (hd : decode s.pins.cmd = .command i) :
    (stepNext s).errcode = if legalIn s.phase i then .none else sequenceError i := by
  have hl := listens_of_accepts ha hp
  rw [stepNext_of_command ha hp hd]
  cases hi : legalIn s.phase i with
  | true => exact (effect_errcode_of_legal (s := { s with inputs := s.inputs.tail }) hl hi).trans he
  | false => exact congrArg State.errcode (effect_of_illegal (s := { s with inputs := s.inputs.tail }) hl hi)

/-- FOLDW and FOLDP are listed in ABSORB alone, FIN in ABSORB and CLOSED, and INIT in every phase that listens. -/
theorem sequenceError_cause {p : Phase} (hl : p.listens = true) (i : Instr) :
    let code := if legalIn p i then .none else sequenceError i
    code ≠ .illegalCmd ∧
    (code = .seqFold ↔ (p = .idle ∨ p = .closed ∨ p = .done) ∧ ((∃ d, i = .foldw d) ∨ ∃ n d, i = .foldp n d)) ∧
    (code = .seqFin ↔ (p = .idle ∨ p = .done) ∧ i = .fin) := by
  rcases (listens_iff_idle_absorb_closed_done p).mp hl with rfl | rfl | rfl | rfl
  all_goals cases i <;> simp [legalIn, sequenceError]

/-- Settles O19: without an accepted word nothing is raised; an illegal word raises `ILLEGAL_CMD`, and a command its own
sequence error, in the phases that do not list it. -/
theorem errorCodesNameTheirCause : Obligations.ErrorCodesNameTheirCause := by
  refine ⟨rfl, rfl, rfl, rfl, fun s t he hp ht => ?_⟩
  rw [eq_stepNext ht]
  cases ha : s.accepts with
  | false => simp [stepNext_errcode_of_not_accepts he ha]
  | true =>
    cases hd : decode s.pins.cmd with
    | illegal => simp [← eq_stepNext (step_of_illegal ha hp hd)]
    | command i =>
      rw [stepNext_errcode_of_command he hp ha hd]
      simpa using sequenceError_cause (listens_of_accepts ha hp) i

/-! ### Reset, the order of the checks, and the next state -/

/-- Settles O21: without a reset `stepNext_of_fault` keeps the phase; Reset writes it and `ERRCODE`. -/
theorem onlyResetLeavesFault : Obligations.OnlyResetLeavesFault := by
  refine ⟨fun s t hp ht hne => ?_, fun s _ hr => ⟨_, step_eq s, ?_⟩, fun i _ hp => exec_of_fault hp i,
    fun s hp ha _ => step_of_fault hp ha⟩
  · cases hr : s.pins.rst with
    | true => rfl
    | false =>
      rw [eq_stepNext ht, stepNext_of_fault hp hr] at hne
      exact absurd hp hne
  · rw [stepNext_of_reset hr]
    exact ⟨rfl, rfl⟩

/-- Settles O24: each check decides the step whatever the later ones would say. -/
theorem checksAreOrdered : Obligations.ChecksAreOrdered := by
  have hillegal : ∀ s t : State, s.accepts = true → s.phase ≠ .fault → decode s.pins.cmd = .illegal → step s = .next t →
      t.errcode = .illegalCmd := by
    intro s t ha hp hd ht
    cases (step_of_illegal ha hp hd).symm.trans ht
    rfl
  refine ⟨fun s t hr ht => ⟨?_, ?_⟩, fun s => step_of_fault, hillegal, fun s t i ha hp hd hi ht => ?_,
    fun s t ha hp hcmd => hillegal s t ha (by simp [hp]) (by rw [hcmd]; decide)⟩
  · rw [eq_stepNext ht, stepNext_of_reset hr, applyReset_phase]
  · simp [State.accepts, hr]
  · cases (step_of_illegal_command ha hp hd hi).symm.trans ht
    exact sequenceError_of_illegal (listens_of_accepts ha hp) hi

/-- Settles O27: the meaning of every word and of DSTEP is a total function of the state, so `stepNext` is the outcome. -/
theorem everyStateHasANextState : Obligations.EveryStateHasANextState :=
  fun s => ⟨stepNext s, step_eq s⟩

end Sys2Proof.Machine
end

section
/-! Reset (70_reset_and_hazards.md R145) and the end of the diffusion (R158). -/

namespace Sys2Proof.Machine

/-- Settles O22: the step is `applyReset` on the moved-on host, which waits for nothing under reset. -/
theorem resetClearsControlRegisters : Obligations.ResetClearsControlRegisters := by
  intro s hr
  refine ⟨_, step_eq s, ?_⟩
  rw [stepNext_of_reset hr]
  have hwaits : s.wordWaits = false := by simp [State.wordWaits, hr]
  have haccepts : s.accepts = false := by simp [State.accepts, hr]
  exact ⟨rfl, rfl, rfl, rfl, rfl, by simp [hwaits], haccepts⟩

/-- In DIFFUSE the invariant bounds the count of DSTEPs: `OC ≤ 7`, and `IC ≤ 7` by its width. -/
theorem StateInv.stepsDone_le {s : State} (h : StateInv s) (hp : s.phase = .diffuse) : s.stepsDone ≤ 63 := by
  have hoc := h.diffuseCounts hp
  unfold State.stepsDone
  bv_omega

/-- Settles O13: until 64 the steps of the block are DSTEPs, each of which counts one; the 64th completes. -/
theorem diffusionEndsAfterExactly64Steps : Obligations.DiffusionEndsAfterExactly64Steps := by
  intro s hinv hp hn
  have hle := hinv.stepsDone_le hp
  refine ⟨hle, fun k hk => ⟨_, runSteps_eq k s, ?_, ?_⟩, _, runSteps_eq _ s, ?_⟩
  · exact iterate_stepNext_phase_diffuse hn hp (by omega)
  · rw [(iterate_stepNext_diffuse hn hp (by omega)).2]
    exact (iterate_dstep_counts (by omega)).2
  · have hlast : 64 - s.stepsDone = 63 - s.stepsDone + 1 := by omega
    rw [hlast]
    exact iterate_stepNext_phase_done hn hp (by omega)

end Sys2Proof.Machine
end

section
/-! Runs (70_reset_and_hazards.md R149). Each cause that ends a run leads to a phase of its own: Reset to IDLE, INIT to ABSORB,
the 64th DSTEP to DONE, a protocol error to FAULT. So the ends exclude each other. -/

namespace Sys2Proof.Machine

/-! ### Where each cause leads -/

theorem stepNext_phase_of_reset {s : State} (hr : s.pins.rst = true) : (stepNext s).phase = .idle := by
  rw [stepNext_of_reset hr, applyReset_phase]

theorem stepNext_phase_of_performs_init {s : State} (h : s.performs .init) : (stepNext s).phase = .absorb := by
  obtain ⟨ha, hp, hd⟩ := h
  rw [stepNext_of_command ha hp hd]
  rfl

theorem stepNext_phase_of_last_dstep {s : State} (h : s.diffuses) (hsteps : s.stepsDone = 63) :
    (stepNext s).phase = .done := by
  rw [stepNext_of_diffuse h.1 h.2]
  exact dstep_phase_of_stepsDone_eq (s := s.advanceInputs) hsteps

/-- A protocol error leads to FAULT, with a code other than 0. -/
theorem stepNext_of_errs {s : State} (h : s.errs) : (stepNext s).phase = .fault ∧ (stepNext s).errcode ≠ .none := by
  obtain ⟨code, hc, hstep⟩ := step_of_errs h
  rw [← eq_stepNext hstep]
  exact ⟨rfl, hc⟩

/-- A DSTEP other than the 64th, at a count past 64 too, stays in DIFFUSE. -/
theorem stepNext_phase_of_dstep {s : State} (h : s.diffuses) (hsteps : s.stepsDone ≠ 63) :
    (stepNext s).phase = .diffuse := by
  rw [stepNext_of_diffuse h.1 h.2, dstep_phase, if_neg, State.advanceInputs_phase, h.2]
  rintro ⟨hic, hoc⟩
  rw [State.advanceInputs_ic] at hic
  rw [State.advanceInputs_oc] at hoc
  exact hsteps (by rw [State.stepsDone, hic, hoc]; rfl)

theorem inRun_stepNext_of_reset {s : State} (hr : s.pins.rst = true) : (stepNext s).inRun = false := by
  rw [State.inRun, stepNext_phase_of_reset hr]

theorem inRun_stepNext_of_performs_init {s : State} (h : s.performs .init) : (stepNext s).inRun = true := by
  rw [State.inRun, stepNext_phase_of_performs_init h]

/-! ### The step of a run -/

theorem abandons_iff {s : State} (h : s.inRun = true) :
    s.abandons = true ↔ s.pins.rst = true ∨ s.performs .init := by
  rw [State.abandons, h, Bool.true_and, Bool.or_eq_true, startsRun_iff]

/-- A step of a run that is none of the three kinds of end goes on with it. -/
theorem inRun_stepNext_of_continues {s : State} (h : s.inRun = true) (ha : ¬(s.pins.rst = true ∨ s.performs .init))
    (hc : ¬(s.diffuses ∧ s.stepsDone = 63)) (he : ¬ s.errs) : (stepNext s).inRun = true := by
  rcases stepNext_cases s with
    ⟨hr, -⟩ | ⟨hr, hp, -⟩ | ⟨-, hf, -⟩ | ⟨hacc, hl, hd, -⟩ | ⟨i, hacc, hl, hd, e⟩ | ⟨-, -, -, e⟩
  · exact absurd (.inl hr) ha
  · have hdiff : s.diffuses := ⟨hr, hp⟩
    rw [inRun_iff, stepNext_phase_of_dstep hdiff fun hsteps => hc ⟨hdiff, hsteps⟩]
    exact .inr (.inr rfl)
  · simp [inRun_iff, hf] at h
  · exact absurd ⟨hacc, hl, .inl hd⟩ he
  · rw [e, inRun_iff]
    rcases effect_cases (i := i) (s := { s with inputs := s.inputs.tail }) hl with
      ⟨hi, -⟩ | ⟨-, ⟨rfl, -⟩ | ⟨_, -, hp, e'⟩ | ⟨_, _, -, -, e'⟩ | ⟨-, -, e'⟩⟩
    · exact absurd ⟨hacc, hl, .inr ⟨i, hd, hi⟩⟩ he
    · exact absurd (.inr ⟨hacc, ((listens_iff _).mp hl).2, hd⟩) ha
    · exact .inl (by rw [e']; exact hp)
    · exact .inr (.inl (by rw [e']))
    · exact .inr (.inr (by rw [e']))
  · rw [e]
    exact h

/-! ### The end of a run -/

theorem runEnd_of_not_inRun {s : State} (h : s.inRun = false) : s.runEnd = none := by
  simp [runEnd_eq, State.runEndAt, State.abandons, h]

theorem runEnd_of_abandons {s : State} (h : s.abandons = true) : s.runEnd = some .abandoned := by
  rw [runEnd_eq, State.runEndAt, if_pos h]

theorem abandons_eq_false_of_phase {s : State} (h : s.inRun = true) (hi : (stepNext s).phase ≠ .idle)
    (ha : (stepNext s).phase ≠ .absorb) : s.abandons = false := by
  rw [Bool.eq_false_iff]
  intro hab
  rcases (abandons_iff h).mp hab with hr | hinit
  · exact hi (stepNext_phase_of_reset hr)
  · exact ha (stepNext_phase_of_performs_init hinit)

theorem runEnd_of_done {s : State} (h : s.inRun = true) (hp : (stepNext s).phase = .done) :
    s.runEnd = some (.completed (stepNext s).dg (stepNext s).az) := by
  simp [runEnd_eq, State.runEndAt, abandons_eq_false_of_phase h, h, hp]

theorem runEnd_of_fault {s : State} (h : s.inRun = true) (hp : (stepNext s).phase = .fault) :
    s.runEnd = some (.faulted (stepNext s).errcode) := by
  simp [runEnd_eq, State.runEndAt, abandons_eq_false_of_phase h, h, hp]

theorem runEnd_of_continues {s : State} (ha : s.abandons = false) (ht : (stepNext s).inRun = true) :
    s.runEnd = none := by
  rcases (inRun_iff _).mp ht with hp | hp | hp <;> simp [runEnd_eq, State.runEndAt, ha, hp]

/-- Everything a step of a run can do: the cause, the end it is, and the phase it leads to. -/
theorem runEnd_cases {s : State} (h : s.inRun = true) :
    ((s.pins.rst = true ∨ s.performs .init) ∧ s.runEnd = some .abandoned) ∨
    ((s.diffuses ∧ s.stepsDone = 63) ∧ s.runEnd = some (.completed (stepNext s).dg (stepNext s).az) ∧
      (stepNext s).phase = .done) ∨
    (s.errs ∧ s.runEnd = some (.faulted (stepNext s).errcode) ∧ (stepNext s).phase = .fault) ∨
    (¬(s.pins.rst = true ∨ s.performs .init) ∧ s.runEnd = none ∧ (stepNext s).inRun = true) := by
  by_cases ha : s.pins.rst = true ∨ s.performs .init
  · exact .inl ⟨ha, runEnd_of_abandons ((abandons_iff h).mpr ha)⟩
  by_cases hc : s.diffuses ∧ s.stepsDone = 63
  · have hp := stepNext_phase_of_last_dstep hc.1 hc.2
    exact .inr (.inl ⟨hc, runEnd_of_done h hp, hp⟩)
  by_cases he : s.errs
  · have hp := (stepNext_of_errs he).1
    exact .inr (.inr (.inl ⟨he, runEnd_of_fault h hp, hp⟩))
  · have ht := inRun_stepNext_of_continues h ha hc he
    exact .inr (.inr (.inr ⟨ha, runEnd_of_continues (Bool.eq_false_iff.mpr (mt (abandons_iff h).mp ha)) ht, ht⟩))

/-- Only a run in progress ends. -/
theorem inRun_of_runEnd {s : State} {e : RunEnd} (h : s.runEnd = some e) : s.inRun = true := by
  cases hin : s.inRun with
  | true => rfl
  | false => simp [runEnd_of_not_inRun hin] at h

theorem runEnd_eq_completed_iff {s : State} (h : s.inRun = true) (d : Word64) (a : Bool) :
    s.runEnd = some (.completed d a) ↔
      s.diffuses ∧ s.stepsDone = 63 ∧ d = (stepNext s).dg ∧ a = (stepNext s).az := by
  constructor
  · intro hend
    rcases runEnd_cases h with ⟨-, e⟩ | ⟨⟨hd, hsteps⟩, e, -⟩ | ⟨-, e, -⟩ | ⟨-, e, -⟩ <;> cases hend.symm.trans e
    exact ⟨hd, hsteps, rfl, rfl⟩
  · rintro ⟨hd, hsteps, rfl, rfl⟩
    exact runEnd_of_done h (stepNext_phase_of_last_dstep hd hsteps)

theorem runEnd_eq_abandoned_iff {s : State} (h : s.inRun = true) :
    s.runEnd = some .abandoned ↔ s.pins.rst = true ∨ s.performs .init := by
  constructor
  · intro hend
    rcases runEnd_cases h with ⟨ha, -⟩ | ⟨-, e, -⟩ | ⟨-, e, -⟩ | ⟨-, e, -⟩
    · exact ha
    all_goals cases hend.symm.trans e
  · exact fun ha => runEnd_of_abandons ((abandons_iff h).mpr ha)

theorem runEnd_eq_faulted_iff {s : State} (h : s.inRun = true) (c : ErrCode) :
    s.runEnd = some (.faulted c) ↔ s.errs ∧ c = (stepNext s).errcode := by
  constructor
  · intro hend
    rcases runEnd_cases h with ⟨-, e⟩ | ⟨-, e, -⟩ | ⟨he, e, -⟩ | ⟨-, e, -⟩ <;> cases hend.symm.trans e
    exact ⟨he, rfl⟩
  · rintro ⟨he, rfl⟩
    exact runEnd_of_fault h (stepNext_of_errs he).1

theorem runEnd_eq_none_iff {s : State} (h : s.inRun = true) :
    s.runEnd = none ↔ (stepNext s).inRun = true ∧ ¬ s.performs .init := by
  constructor
  · intro hend
    rcases runEnd_cases h with ⟨-, e⟩ | ⟨-, e, -⟩ | ⟨-, e, -⟩ | ⟨ha, -, ht⟩
    · cases hend.symm.trans e
    · cases hend.symm.trans e
    · cases hend.symm.trans e
    · exact ⟨ht, fun hinit => ha (.inr hinit)⟩
  · rintro ⟨ht, hinit⟩
    have hr : s.pins.rst ≠ true := fun hr => by simp [inRun_stepNext_of_reset hr] at ht
    have ha : ¬ s.abandons = true := fun hab => ((abandons_iff h).mp hab).elim hr hinit
    exact runEnd_of_continues (Bool.eq_false_iff.mpr ha) ht

/-! ### Starts and ends balance -/

/-- Outside a run a step leads into one exactly when it performs INIT. -/
theorem inRun_stepNext_iff_of_not_inRun {s : State} (h : s.inRun = false) :
    (stepNext s).inRun = true ↔ s.performs .init := by
  constructor
  · intro ht
    have hr : s.pins.rst = false := Bool.eq_false_iff.mpr fun hr => by simp [inRun_stepNext_of_reset hr] at ht
    have hne : (stepNext s).phase ≠ s.phase := fun hsame => by
      rw [inRun_iff, hsame, ← inRun_iff, h] at ht
      cases ht
    have hfault : (stepNext s).phase ≠ .fault := fun hf => by simp [inRun_iff, hf] at ht
    have hp : s.phase = .idle ∨ s.phase = .done := by
      cases hp : s.phase with
      | idle => exact .inl rfl
      | done => exact .inr rfl
      | fault => exact absurd (by rw [stepNext_of_fault hp hr]) hne
      | absorb | closed | diffuse => simp [State.inRun, hp] at h
    exact performs_init_of_leaves hp hr hne hfault
  · exact inRun_stepNext_of_performs_init

/-- After a Reset or an INIT a run is in progress exactly when it was INIT. -/
theorem inRun_stepNext_iff_of_reset_or_init {s : State} (h : s.pins.rst = true ∨ s.performs .init) :
    (stepNext s).inRun = true ↔ s.performs .init := by
  constructor
  · exact fun ht => h.resolve_left fun hr => by simp [inRun_stepNext_of_reset hr] at ht
  · exact inRun_stepNext_of_performs_init

/-- Where INIT alone leads into a run, one is in progress after the step exactly when the step starts it. -/
theorem inRun_stepNext_eq_startsRun {s : State} (h : (stepNext s).inRun = true ↔ s.performs .init) :
    (stepNext s).inRun = s.startsRun :=
  Bool.eq_iff_iff.mpr (h.trans (startsRun_iff s).symm)

theorem startsRun_eq_false {s : State} (h : ¬ s.performs .init) : s.startsRun = false :=
  Bool.eq_false_iff.mpr (mt (startsRun_iff s).mp h)

/-- A step that leads to any phase but ABSORB starts no run. -/
theorem startsRun_eq_false_of_phase {s : State} (h : (stepNext s).phase ≠ .absorb) : s.startsRun = false :=
  startsRun_eq_false (mt stepNext_phase_of_performs_init h)

/-- One step: the run that ends and the one in progress after it are the one that starts and the one in progress before. -/
theorem runEnd_balance (s : State) :
    s.runEnd.toList.length + (stepNext s).inRun.toNat = s.startsRun.toNat + s.inRun.toNat := by
  cases h : s.inRun with
  | false =>
    simp [runEnd_of_not_inRun h, inRun_stepNext_eq_startsRun (inRun_stepNext_iff_of_not_inRun h)]
  | true =>
    rcases runEnd_cases h with ⟨ha, e⟩ | ⟨-, e, hp⟩ | ⟨-, e, hp⟩ | ⟨ha, e, ht⟩
    · simp [e, inRun_stepNext_eq_startsRun (inRun_stepNext_iff_of_reset_or_init ha), Nat.add_comm]
    · simp [e, State.inRun, hp, startsRun_eq_false_of_phase]
    · simp [e, State.inRun, hp, startsRun_eq_false_of_phase]
    · simp [e, ht, startsRun_eq_false (not_or.mp ha).2]

theorem runEnds_balance (k : Nat) (s : State) :
    (runEnds k s).length + (stepNext^[k] s).inRun.toNat = runStarts k s + s.inRun.toNat := by
  induction k generalizing s with
  | zero => simp [runEnds, runStarts]
  | succ k ih =>
    have hstep := runEnd_balance s
    have hrest := ih (stepNext s)
    rw [runEnds_succ, runStarts_succ, Function.iterate_succ_apply, List.length_append]
    omega

/-! ### What an end leaves -/

/-- A completed run's result stands on the ports. -/
theorem stepNext_of_completed {s : State} {d : Word64} {a : Bool} (h : s.runEnd = some (.completed d a)) :
    (stepNext s).phase = .done ∧ (stepNext s).outputs.digest = some d ∧ (stepNext s).outputs.ambiguous = a := by
  obtain ⟨hd, hsteps, rfl, rfl⟩ := (runEnd_eq_completed_iff (inRun_of_runEnd h) d a).mp h
  have hp := stepNext_phase_of_last_dstep hd hsteps
  simp [State.outputs, State.digest, State.ambiguous, State.done, hp]

/-- A host that sends nothing in ABSORB or CLOSED leaves the run as it is. -/
theorem runEnd_of_quiet {s : State} (hp : s.phase = .absorb ∨ s.phase = .closed) (hr : s.pins.rst = false)
    (hv : s.pins.cmdValid = false) : s.runEnd = none ∧ (stepNext s).phase = s.phase := by
  have hin : s.inRun = true := (inRun_iff s).mpr (hp.imp_right .inl)
  have hd : s.phase ≠ .diffuse := by rcases hp with hp | hp <;> simp [hp]
  have hstep := stepNext_of_quiet hr hv hd
  have hinit : ¬ s.performs .init := fun ⟨ha, _⟩ => by simp [accepts_iff, hv] at ha
  refine ⟨(runEnd_eq_none_iff hin).mpr ⟨?_, hinit⟩, ?_⟩
  · rw [hstep]
    exact hin
  · rw [hstep]

/-- Settles O46: the causes of the three ends and of going on; what each end leaves; and, by induction on the number of steps,
the balance of starts and ends. -/
theorem runsEndInExactlyOneWay : Obligations.RunsEndInExactlyOneWay := by
  refine ⟨?_, ?_, ?_, ?_, rfl, ?_, ?_⟩
  · intro s t ht h
    rw [eq_stepNext ht]
    exact ⟨runEnd_of_not_inRun h, inRun_stepNext_iff_of_not_inRun h⟩
  · intro s t ht h
    rw [eq_stepNext ht]
    exact ⟨runEnd_eq_completed_iff h, runEnd_eq_abandoned_iff h, runEnd_eq_faulted_iff h, runEnd_eq_none_iff h⟩
  · intro s t d a ht h
    rw [eq_stepNext ht]
    obtain ⟨hp, hdigest, hflag⟩ := stepNext_of_completed h
    exact ⟨hp, hdigest, hflag, rfl⟩
  · intro s t c ht h
    rw [eq_stepNext ht]
    obtain ⟨he, rfl⟩ := (runEnd_eq_faulted_iff (inRun_of_runEnd h) c).mp h
    obtain ⟨hp, hc⟩ := stepNext_of_errs he
    refine ⟨hp, hc, rfl, fun hn k => ?_⟩
    rw [runSteps_eq, iterate_stepNext_fault k hp hn]
  · intro s t hp hr hv ht
    rw [eq_stepNext ht]
    exact runEnd_of_quiet hp hr hv
  · intro k s t ht
    cases (runSteps_eq k s).symm.trans ht
    exact runEnds_balance k s

end Sys2Proof.Machine
end
